-- ==== Sys2Proof/Word.lean ====
section
/-! DEFINITION. The word types of the machine (00_scope.md R5, R6): every value is an unsigned bit vector of the width
the spec gives it. -/

namespace Sys2Proof

/-- A 4-bit field of an instruction (30_encoding.md R40). -/
abbrev Nibble := BitVec 4

/-- A register selector, the fields `x` and `y` of an instruction: one of V0..VF (10_state.md R9). -/
abbrev Reg := BitVec 4

/-- A key code 0x0..0xF (10_state.md R16). -/
abbrev Key := BitVec 4

/-- One byte: a general register, a memory cell, an immediate `kk` (R5). -/
abbrev Byte := BitVec 8

/-- The 12-bit address field `nnn` of an instruction (30_encoding.md R40). -/
abbrev Addr12 := BitVec 12

/-- A 16-bit address register: PC, I, a stack entry (R5). -/
abbrev Addr := BitVec 16

/-- One 16-bit instruction word (30_encoding.md R39). -/
abbrev Word := BitVec 16

/-- A set of key codes (10_state.md R16): entry `k` is true when key `k` is in the set. -/
abbrev KeySet := Vector Bool 16

end Sys2Proof
end

