-- ==== Sys2Proof/Syntax.lean ====
section
/-! DEFINITION. The instruction set: one constructor for each of the 34 rows of spec/opcode_table.json, in the table's
order (30_encoding.md R43), with the fields of its format (R42). A word that no row matches is no instruction; it is
`Sys2Proof.Decoded.nop` of Decode.lean (R45). -/

namespace Sys2Proof

/-- The instructions of 30_encoding.md R43. -/
inductive Instr where
  /-- `00E0` CLS (R57). -/
  | cls
  /-- `00EE` RET (R59). -/
  | ret
  /-- `1nnn` JP nnn (R60). -/
  | jp (nnn : Addr12)
  /-- `2nnn` CALL nnn (R61). -/
  | call (nnn : Addr12)
  /-- `3xkk` SE Vx, kk (R62). -/
  | seImm (x : Reg) (kk : Byte)
  /-- `4xkk` SNE Vx, kk (R63). -/
  | sneImm (x : Reg) (kk : Byte)
  /-- `5xy0` SE Vx, Vy (R64). -/
  | seReg (x y : Reg)
  /-- `6xkk` LD Vx, kk (R67). -/
  | ldImm (x : Reg) (kk : Byte)
  /-- `7xkk` ADD Vx, kk (R68). -/
  | addImm (x : Reg) (kk : Byte)
  /-- `8xy0` LD Vx, Vy (R69). -/
  | ldReg (x y : Reg)
  /-- `8xy1` OR Vx, Vy (R70). -/
  | orReg (x y : Reg)
  /-- `8xy2` AND Vx, Vy (R71). -/
  | andReg (x y : Reg)
  /-- `8xy3` XOR Vx, Vy (R72). -/
  | xorReg (x y : Reg)
  /-- `8xy4` ADD Vx, Vy (R73). -/
  | addReg (x y : Reg)
  /-- `8xy5` SUB Vx, Vy (R74). -/
  | subReg (x y : Reg)
  /-- `8xy6` SHR Vx (R75); `y` is decoded and not read. -/
  | shr (x y : Reg)
  /-- `8xy7` SUBN Vx, Vy (R76). -/
  | subnReg (x y : Reg)
  /-- `8xyE` SHL Vx (R77); `y` is decoded and not read. -/
  | shl (x y : Reg)
  /-- `9xy0` SNE Vx, Vy (R65). -/
  | sneReg (x y : Reg)
  /-- `Annn` LD I, nnn (R80). -/
  | ldI (nnn : Addr12)
  /-- `Bnnn` JP V0, nnn (R66). -/
  | jpV0 (nnn : Addr12)
  /-- `Cxkk` RND Vx, kk (R78). -/
  | rnd (x : Reg) (kk : Byte)
  /-- `Dxyn` DRW Vx, Vy, n (R58). -/
  | drw (x y : Reg) (n : Nibble)
  /-- `Ex9E` SKP Vx (R86). -/
  | skp (x : Reg)
  /-- `ExA1` SKNP Vx (R87). -/
  | sknp (x : Reg)
  /-- `Fx07` LD Vx, DT (R88). -/
  | ldVxDt (x : Reg)
  /-- `Fx0A` LD Vx, K (R89). -/
  | ldVxK (x : Reg)
  /-- `Fx15` LD DT, Vx (R90). -/
  | ldDtVx (x : Reg)
  /-- `Fx18` LD ST, Vx (R91). -/
  | ldStVx (x : Reg)
  /-- `Fx1E` ADD I, Vx (R81). -/
  | addI (x : Reg)
  /-- `Fx29` LD F, Vx (R82). -/
  | ldF (x : Reg)
  /-- `Fx33` LD B, Vx (R83). -/
  | ldB (x : Reg)
  /-- `Fx55` LD [I], Vx (R84). -/
  | ldMemVx (x : Reg)
  /-- `Fx65` LD Vx, [I] (R85). -/
  | ldVxMem (x : Reg)
  deriving DecidableEq, Repr

/-- The calls the host can make (70_reset_and_hazards.md R113); `step()` is another name of `tick()` (90_conflicts.md
C4). Key codes are plain numbers here, so that a call that breaks the host's duty can be written and refused. -/
inductive HostCall where
  | reset
  | loadProgram (bytes : List Byte)
  | setKeys (codes : List Nat)
  | tick
  | executeOnly
  | getDisplayBuffer
  deriving DecidableEq, Repr

end Sys2Proof
end

