-- ==== Sys2Proof/WellFormed.lean ====
section
/-! DEFINITION. Well-formedness of what the machine is given. An instruction's fields have exactly the widths of its
encoding (30_encoding.md R40, R42), so EVERY term of `Instr` is well-formed: 4-bit selectors cannot name a register
outside V0..VF (60_exceptions.md R92), and every value of every field is a word the table accepts. What CAN be
ill-formed is a host call that breaks a duty of 70_reset_and_hazards.md R113. -/

namespace Sys2Proof

/-- Well-formed instructions: all of them, because the field types carry every bound of the formats of R42. -/
def Instr.wellFormed : Instr → Bool
  | .cls | .ret => true
  | .jp _ | .call _ | .ldI _ | .jpV0 _ => true
  | .seImm _ _ | .sneImm _ _ | .ldImm _ _ | .addImm _ _ | .rnd _ _ => true
  | .seReg _ _ | .sneReg _ _ | .ldReg _ _ | .orReg _ _ | .andReg _ _ | .xorReg _ _ => true
  | .addReg _ _ | .subReg _ _ | .subnReg _ _ | .shr _ _ | .shl _ _ => true
  | .drw _ _ _ => true
  | .skp _ | .sknp _ | .ldVxDt _ | .ldVxK _ | .ldDtVx _ | .ldStVx _ => true
  | .addI _ | .ldF _ | .ldB _ | .ldMemVx _ | .ldVxMem _ => true

/-- The host's duties (R113): a program image of at most 3584 bytes (R112), key codes 0x0..0xF (R110). -/
def HostCall.wellFormed : HostCall → Bool
  | .loadProgram bytes => decide (bytes.length ≤ 3584)
  | .setKeys codes => codes.all (fun k => decide (k < 16))
  | .reset | .tick | .executeOnly | .getDisplayBuffer => true

end Sys2Proof
end

