-- ==== Sys2Proof/Decode.lean ====
section
/-! DEFINITION. The instruction decoder and the encoder (30_encoding.md R39 to R48). The patterns are those of R43,
which the spec adopts by decision D1 (log 6). -/

namespace Sys2Proof

/-! ### Fields of a word (R40) -/

/-- `x = op[11:8]`. -/
def fieldX (op : Word) : Reg := op.extractLsb' 8 4
/-- `y = op[7:4]`. -/
def fieldY (op : Word) : Reg := op.extractLsb' 4 4
/-- `n = op[3:0]`. -/
def fieldN (op : Word) : Nibble := op.extractLsb' 0 4
/-- `kk = op[7:0]`. -/
def fieldKK (op : Word) : Byte := op.extractLsb' 0 8
/-- `nnn = op[11:0]`. -/
def fieldNNN (op : Word) : Addr12 := op.extractLsb' 0 12

/-! ### Byte order of an instruction (20_memory.md R30) -/

/-- The word whose first byte (at the lower address) is `hi`: big-endian. -/
def wordOfBytes (hi lo : Byte) : Word := hi ++ lo
/-- The byte of a word that stands at the lower address. -/
def hiByte (op : Word) : Byte := op.extractLsb' 8 8
/-- The byte of a word that stands at the higher address. -/
def loByte (op : Word) : Byte := op.extractLsb' 0 8

/-! ### The opcode map (R43) -/

/-- The parameter `SKIP_REG_STRICT` of R44 (decision D2): true, the low nibble of 5xy0 and 9xy0 must be 0. -/
def skipRegStrict : Bool := true

/-- One row of R43: a word is recognised by it when `op & mask = pattern`; `build` takes the row's fields. -/
structure OpRow where
  mask : Word
  pattern : Word
  build : Word → Instr

/-- Does the row recognise the word? -/
def rowMatches (r : OpRow) (op : Word) : Bool := op &&& r.mask == r.pattern

/-- Rows 1 to 9 of R43, words of the classes 0 to 7. -/
def opRowsLow (strict : Bool) : List OpRow :=
  [ ⟨0xFFFF, 0x00E0, fun _ => .cls⟩,
    ⟨0xFFFF, 0x00EE, fun _ => .ret⟩,
    ⟨0xF000, 0x1000, fun op => .jp (fieldNNN op)⟩,
    ⟨0xF000, 0x2000, fun op => .call (fieldNNN op)⟩,
    ⟨0xF000, 0x3000, fun op => .seImm (fieldX op) (fieldKK op)⟩,
    ⟨0xF000, 0x4000, fun op => .sneImm (fieldX op) (fieldKK op)⟩,
    ⟨if strict then 0xF00F else 0xF000, 0x5000, fun op => .seReg (fieldX op) (fieldY op)⟩,
    ⟨0xF000, 0x6000, fun op => .ldImm (fieldX op) (fieldKK op)⟩,
    ⟨0xF000, 0x7000, fun op => .addImm (fieldX op) (fieldKK op)⟩ ]

/-- Rows 10 to 18 of R43, words of the class 8. -/
def opRowsAlu : List OpRow :=
  [ ⟨0xF00F, 0x8000, fun op => .ldReg (fieldX op) (fieldY op)⟩,
    ⟨0xF00F, 0x8001, fun op => .orReg (fieldX op) (fieldY op)⟩,
    ⟨0xF00F, 0x8002, fun op => .andReg (fieldX op) (fieldY op)⟩,
    ⟨0xF00F, 0x8003, fun op => .xorReg (fieldX op) (fieldY op)⟩,
    ⟨0xF00F, 0x8004, fun op => .addReg (fieldX op) (fieldY op)⟩,
    ⟨0xF00F, 0x8005, fun op => .subReg (fieldX op) (fieldY op)⟩,
    ⟨0xF00F, 0x8006, fun op => .shr (fieldX op) (fieldY op)⟩,
    ⟨0xF00F, 0x8007, fun op => .subnReg (fieldX op) (fieldY op)⟩,
    ⟨0xF00F, 0x800E, fun op => .shl (fieldX op) (fieldY op)⟩ ]

/-- Rows 19 to 25 of R43, words of the classes 9 to E. -/
def opRowsMid (strict : Bool) : List OpRow :=
  [ ⟨if strict then 0xF00F else 0xF000, 0x9000, fun op => .sneReg (fieldX op) (fieldY op)⟩,
    ⟨0xF000, 0xA000, fun op => .ldI (fieldNNN op)⟩,
    ⟨0xF000, 0xB000, fun op => .jpV0 (fieldNNN op)⟩,
    ⟨0xF000, 0xC000, fun op => .rnd (fieldX op) (fieldKK op)⟩,
    ⟨0xF000, 0xD000, fun op => .drw (fieldX op) (fieldY op) (fieldN op)⟩,
    ⟨0xF0FF, 0xE09E, fun op => .skp (fieldX op)⟩,
    ⟨0xF0FF, 0xE0A1, fun op => .sknp (fieldX op)⟩ ]

/-- Rows 26 to 34 of R43, words of the class F. -/
def opRowsHigh : List OpRow :=
  [ ⟨0xF0FF, 0xF007, fun op => .ldVxDt (fieldX op)⟩,
    ⟨0xF0FF, 0xF00A, fun op => .ldVxK (fieldX op)⟩,
    ⟨0xF0FF, 0xF015, fun op => .ldDtVx (fieldX op)⟩,
    ⟨0xF0FF, 0xF018, fun op => .ldStVx (fieldX op)⟩,
    ⟨0xF0FF, 0xF01E, fun op => .addI (fieldX op)⟩,
    ⟨0xF0FF, 0xF029, fun op => .ldF (fieldX op)⟩,
    ⟨0xF0FF, 0xF033, fun op => .ldB (fieldX op)⟩,
    ⟨0xF0FF, 0xF055, fun op => .ldMemVx (fieldX op)⟩,
    ⟨0xF0FF, 0xF065, fun op => .ldVxMem (fieldX op)⟩ ]

/-- The 34 rows of R43, in the table's order. -/
def opRows (strict : Bool) : List OpRow :=
  opRowsLow strict ++ opRowsAlu ++ opRowsMid strict ++ opRowsHigh

/-! ### Decoding (R44, R45, R48) -/

/-- What a word decodes to: an instruction of the table, or the no-op of R45. -/
inductive Decoded where
  /-- The instruction of the one row of R43 that recognises the word. -/
  | instr (i : Instr)
  /-- No row recognises the word: "a silent no-op" (R45). -/
  | nop
  deriving DecidableEq, Repr

/-- Decoding under a choice of `SKIP_REG_STRICT` (R44). -/
def decodeWith (strict : Bool) (op : Word) : Decoded :=
  match (opRows strict).find? (fun r => rowMatches r op) with
  | some r => .instr (r.build op)
  | none => .nop

/-- Decoding, a total function of the word alone (R48). -/
def decode (op : Word) : Decoded := decodeWith skipRegStrict op

/-- Why a list of bytes holds no instruction word. -/
inductive DecodeError where
  /-- Fewer than the two bytes of an instruction (R39). -/
  | truncated
  deriving DecidableEq, Repr

/-- Decode the instruction at the front of a list of bytes, lowest address first, and give the bytes after it. -/
def decodeBytes : List Byte → Except DecodeError (Decoded × List Byte)
  | hi :: lo :: rest => .ok (decode (wordOfBytes hi lo), rest)
  | [_] => .error .truncated
  | [] => .error .truncated

/-! ### Encoding (R42, R43) -/

/-- Format `A`: the class nibble, then `nnn`. -/
def formatA (h : Nibble) (nnn : Addr12) : Word := h ++ nnn
/-- Format `XK`: the class nibble, `x`, `kk`. -/
def formatXK (h : Nibble) (x : Reg) (kk : Byte) : Word := h ++ x ++ kk
/-- Formats `XY` and `XYN`: the class nibble, `x`, `y`, and the fourth nibble (fixed in `XY`, the count in `XYN`). -/
def formatXYN (h : Nibble) (x y : Reg) (n : Nibble) : Word := h ++ x ++ y ++ n

/-- The word of an instruction, from the formats of R42 and the patterns of R43. -/
def encode : Instr → Word
  | .cls => 0x00E0
  | .ret => 0x00EE
  | .jp nnn => formatA 0x1 nnn
  | .call nnn => formatA 0x2 nnn
  | .seImm x kk => formatXK 0x3 x kk
  | .sneImm x kk => formatXK 0x4 x kk
  | .seReg x y => formatXYN 0x5 x y 0x0
  | .ldImm x kk => formatXK 0x6 x kk
  | .addImm x kk => formatXK 0x7 x kk
  | .ldReg x y => formatXYN 0x8 x y 0x0
  | .orReg x y => formatXYN 0x8 x y 0x1
  | .andReg x y => formatXYN 0x8 x y 0x2
  | .xorReg x y => formatXYN 0x8 x y 0x3
  | .addReg x y => formatXYN 0x8 x y 0x4
  | .subReg x y => formatXYN 0x8 x y 0x5
  | .shr x y => formatXYN 0x8 x y 0x6
  | .subnReg x y => formatXYN 0x8 x y 0x7
  | .shl x y => formatXYN 0x8 x y 0xE
  | .sneReg x y => formatXYN 0x9 x y 0x0
  | .ldI nnn => formatA 0xA nnn
  | .jpV0 nnn => formatA 0xB nnn
  | .rnd x kk => formatXK 0xC x kk
  | .drw x y n => formatXYN 0xD x y n
  | .skp x => formatXK 0xE x 0x9E
  | .sknp x => formatXK 0xE x 0xA1
  | .ldVxDt x => formatXK 0xF x 0x07
  | .ldVxK x => formatXK 0xF x 0x0A
  | .ldDtVx x => formatXK 0xF x 0x15
  | .ldStVx x => formatXK 0xF x 0x18
  | .addI x => formatXK 0xF x 0x1E
  | .ldF x => formatXK 0xF x 0x29
  | .ldB x => formatXK 0xF x 0x33
  | .ldMemVx x => formatXK 0xF x 0x55
  | .ldVxMem x => formatXK 0xF x 0x65

/-- The bytes of an instruction as memory holds them, lowest address first (20_memory.md R30). -/
def encodeBytes (i : Instr) : List Byte := [hiByte (encode i), loByte (encode i)]

/-! ### The host's view of the opcode table -/

/-- The 16-bit word of an instruction given as the low `nbits` bits of a number; the bits above are 0. -/
def tableWord (nbits w : Nat) : Word := BitVec.ofNat 16 (w % 2 ^ nbits)

/-- The instruction the decoder reads from the word, laid out in memory order. -/
def decodeTableWord (nbits w : Nat) : Option Instr :=
  match decodeBytes [hiByte (tableWord nbits w), loByte (tableWord nbits w)] with
  | .ok (.instr i, _) => some i
  | .ok (.nop, _) => none
  | .error _ => none

end Sys2Proof
end

