-- ==== Sys2Proof/Machine/Flags.lean ====
section
/-! DEFINITION. Every flag computation: the values written to VF (10_state.md R10, 42_alu.md R79, 40_display.md R58). -/

namespace Sys2Proof.Machine

/-- `bool01(c)` of 00_scope.md R7. -/
def bool01 (c : Bool) : Byte := if c then 1 else 0

/-- ADD Vx,Vy: 1 if the unbounded sum exceeds 255 (42_alu.md R73). -/
def carryFlag (a b : Byte) : Byte := bool01 (decide (a.toNat + b.toNat > 255))

/-- SUB and SUBN, for `a - b`: 1 if `a ≥ b`, no borrow (R74, R76). -/
def noBorrowFlag (a b : Byte) : Byte := bool01 (decide (a.toNat ≥ b.toNat))

/-- SHR: the bit shifted out, 1 or 0 (R75). -/
def shrFlag (a : Byte) : Byte := a &&& 0x01

/-- SHL: the bit shifted out IN PLACE, 0x80 or 0x00, not 1 or 0 (R77, decision D11). -/
def shlFlag (a : Byte) : Byte := a &&& 0x80

/-- DRW: 1 if a toggled cell was on (40_display.md R58). -/
def collisionFlag (collided : Bool) : Byte := bool01 collided

end Sys2Proof.Machine
end

