-- ==== Sys2Proof/Config.lean ====
section
/-! DEFINITION. The open parameters of 00_scope.md R5 as constants WITHOUT a body: nothing in Lean can evaluate them
or prove a value of them, so a theorem holds whatever they are. -/

namespace Sys2Proof

/-- The random bytes of RND (42_alu.md R78, 92_eei_decisions.md D14): the n-th byte drawn is `Config.rnd n`, a FREE
VALUE under no law. DESIGN CHOICE (log 3): the index is `State.draws`, which every RND advances. -/
opaque Config.rnd : Nat → Byte

/-- The free value behind `keyChoice` (44_input_timer.md R89, 92_eei_decisions.md D13): any key, for every key set.
`Sys2Proof.Machine.keyChoice` takes it where it is a member of the set (log 4). -/
opaque Config.keyPick : KeySet → Key

end Sys2Proof
end

