-- ==== Sys2Proof/Machine/State.lean ====
section
/-! DEFINITION. The machine's state as plain data (10_state.md R9 to R23), the reasons a call can stop, and the state
right after power-on. -/

namespace Sys2Proof.Machine

/-- The fault causes of 60_exceptions.md R93. A cause is part of the machine's own state (`FAULT`, 10_state.md R18):
raising one is a step like any other, to a halted state. -/
inductive Cause where
  /-- 1: a fetch byte address is 4096 or more. -/
  | fetchOob
  /-- 2: DRW or LD Vx,[I] would read an address of 4096 or more. -/
  | memRead
  /-- 3: LD B or LD [I],Vx would write an address of 4096 or more. -/
  | memWrite
  /-- 4: CALL with SP = 16. -/
  | stackOverflow
  /-- 5: RET with SP = 0. -/
  | stackUnderflow
  /-- 6: ADD I,Vx with a sum above 0xFFFF. -/
  | indexOverflow
  deriving DecidableEq, Repr

/-- The record `(cause, pc, addr)` of 10_state.md R18. `addr` is unbounded: an index overflow records a 17-bit sum. -/
structure FaultRecord where
  cause : Cause
  pc : Addr
  addr : Nat
  deriving DecidableEq, Repr

/-- The memory `MEM` (20_memory.md R25) as (address, byte) cells: addresses strictly rising and below 4096, no cell
equal to what an unlisted address reads as (`Sys2Proof.Machine.resetByte`, log 5). `Memory.wf` says so. -/
abbrev Memory := List Host.Cell

/-- The display `DISP` (10_state.md R15): 32 rows, top to bottom, of 64 cells, left to right; true is on. -/
abbrev Display := Vector (Vector Bool 64) 32

/-- The whole machine: the tuple of 10_state.md, and `draws`, the model's own. -/
structure State where
  /-- V0..VF (R9); VF is entry 15 (R10). -/
  v : Vector Byte 16
  /-- The index register I (R11). -/
  i : Addr
  /-- The program counter PC (R12). -/
  pc : Addr
  /-- The delay timer DT (R13). -/
  dt : Byte
  /-- The stack pointer SP, 0..16 (R14). -/
  sp : Fin 17
  /-- STACK[0..15] (R14). -/
  stack : Vector Addr 16
  /-- MEM (R17). -/
  mem : Memory
  /-- DISP (R15). -/
  disp : Display
  /-- KEYS (R16). -/
  keys : KeySet
  /-- FAULT (R18); the machine is halted while it is not none (60_exceptions.md R97). -/
  fault : Option FaultRecord
  /-- DESIGN CHOICE (log 3), the model's own field: how many random bytes have been drawn (42_alu.md R78). -/
  draws : Nat
  deriving DecidableEq, Repr

/-- Reasons for which a step would stop OUTSIDE the spec's own state. There are none: every fault the spec describes
is an entry into the halted state (60_exceptions.md R96), a next state with `State.fault` set (log 2). -/
inductive Fault
  deriving DecidableEq, Repr

/-- Reasons for which something is refused by name. No step and no instruction is ever refused. -/
inductive Refusal where
  /-- An instruction without a meaning yet, raised only by an arm of `exec`. Safe. No arm raises it now. -/
  | notModelled (mnemonic : String)
  /-- `load_program` with more than 3584 bytes, raised by `hostLoadProgram`: the host breaks its duty and the spec
  gives the call no move (70_reset_and_hazards.md R112, R113). Safe. -/
  | programTooLong
  /-- `set_keys` with a code above 0xF, raised by `hostSetKeys`: the host breaks its duty and the spec gives the call
  no move (R110, R113). Safe. -/
  | keyCodeOutOfRange
  deriving DecidableEq, Repr

/-- The state at power-on, which is the state after `reset` with no key pressed (70_reset_and_hazards.md R108, R109;
10_state.md R22). Memory lists nothing: an unlisted address reads as the reset contents. -/
def State.reset : State where
  v := Vector.replicate 16 0
  i := 0
  pc := 0
  dt := 0
  sp := 0
  stack := Vector.replicate 16 0
  mem := []
  disp := Vector.replicate 32 (Vector.replicate 64 false)
  keys := Vector.replicate 16 false
  fault := none
  draws := 0

end Sys2Proof.Machine
end

