-- ==== Sys2Proof/Machine/Memory.lean ====
section
/-! DEFINITION. The operations over `MEM` (20_memory.md): its reset contents, byte reads and writes, accesses of
several bytes, and the canonical form. -/

namespace Sys2Proof.Machine

/-- `FONT`, the 80 glyph bytes of 20_memory.md R28 (decision D16, log 7): five rows for each digit 0..F. -/
def font : List Byte :=
  [ 0xF0, 0x90, 0x90, 0x90, 0xF0,
    0x20, 0x60, 0x20, 0x20, 0x70,
    0xF0, 0x10, 0xF0, 0x80, 0xF0,
    0xF0, 0x10, 0xF0, 0x10, 0xF0,
    0x90, 0x90, 0xF0, 0x10, 0x10,
    0xF0, 0x80, 0xF0, 0x10, 0xF0,
    0xF0, 0x80, 0xF0, 0x90, 0xF0,
    0xF0, 0x10, 0x20, 0x40, 0x40 ] ++
  [ 0xF0, 0x90, 0xF0, 0x90, 0xF0,
    0xF0, 0x90, 0xF0, 0x10, 0xF0,
    0xF0, 0x90, 0xF0, 0x90, 0x90,
    0xE0, 0x90, 0xE0, 0x90, 0xE0,
    0xF0, 0x80, 0x80, 0x80, 0xF0,
    0xE0, 0x90, 0x90, 0x90, 0xE0,
    0xF0, 0x80, 0xF0, 0x80, 0xF0,
    0xF0, 0x80, 0xF0, 0x80, 0x80 ]

/-- What an unlisted address reads as, the reset contents of 10_state.md R22: `FONT` in the first 80 cells, 0 after
them (decision D4, log 5). -/
def resetByte (a : Nat) : Byte := font.getD a 0

/-- `MemRead(a, 1)` at an address below 4096 (00_scope.md R8). -/
def Memory.read : Memory → Nat → Byte
  | [], a => resetByte a
  | (b, w) :: m, a => if a = b then w else Memory.read m a

/-- `MemWrite(a, 1, v)` at an address below 4096 (00_scope.md R8): keeps the cells sorted, and lists none that holds
its reset value. -/
def Memory.write : Memory → Nat → Byte → Memory
  | [], a, v => if v = resetByte a then [] else [(a, v)]
  | (b, w) :: m, a, v =>
    if a < b then (if v = resetByte a then (b, w) :: m else (a, v) :: (b, w) :: m)
    else if a = b then (if v = resetByte a then m else (a, v) :: m)
    else (b, w) :: Memory.write m a v

/-- The canonical form from an address on: strictly rising addresses below 4096, no cell at its reset value. -/
def Memory.wfFrom : Nat → Memory → Bool
  | _, [] => true
  | lo, (a, v) :: m =>
    decide (lo ≤ a) && decide (a < 4096) && decide (v ≠ resetByte a) && Memory.wfFrom (a + 1) m

/-- The canonical form of memory. -/
def Memory.wf (m : Memory) : Bool := Memory.wfFrom 0 m

/-- The `n` bytes at `a`, `a + 1`, …, in rising order of address. -/
def Memory.readBytes (m : Memory) (a : Nat) : Nat → List Byte
  | 0 => []
  | n + 1 => m.read a :: Memory.readBytes m (a + 1) n

/-- Write a list of bytes at `a`, `a + 1`, …, in rising order of address. -/
def Memory.writeBytes : Memory → Nat → List Byte → Memory
  | m, _, [] => m
  | m, a, v :: vs => Memory.writeBytes (m.write a v) (a + 1) vs

/-- The check of a whole access of `n` bytes at `base` before any byte moves (60_exceptions.md R94): none if every
address is below 4096, else the lowest address that is not (R26, R33; addresses are unbounded and never wrap). -/
def outsideAt (base n : Nat) : Option Nat :=
  if n = 0 then none
  else if base + n ≤ 4096 then none
  else some (max base 4096)

end Sys2Proof.Machine
end

