-- ==== Sys2Proof/Machine/Ops.lean ====
section
/-! DEFINITION. The named operations over the state: registers, program counter, stack, display, key set, and taking a
fault. Every meaning is written over these. -/

namespace Sys2Proof.Machine

/-- What a meaning, a step or a host call answers. -/
abbrev Result := Host.Outcome State Fault Refusal

/-! ### Registers (10_state.md R9, R10) -/

/-- VF, the flags register, register 15 (R10). -/
def vf : Reg := 15

/-- `V[r]`. -/
def State.reg (s : State) (r : Reg) : Byte := s.v[r.toNat]'(r.isLt)

/-- `V[r] <- b`. No register is hard-wired (R9). -/
def State.setReg (s : State) (r : Reg) (b : Byte) : State := { s with v := s.v.set r.toNat b r.isLt }

/-- `V[k], V[k+1], … <- bs`, in rising order (LD Vx,[I], 43_index_memory.md R85). -/
def State.setRegs (s : State) : Nat → List Byte → State
  | _, [] => s
  | k, b :: bs => State.setRegs (s.setReg (BitVec.ofNat 4 k) b) (k + 1) bs

/-- `V[k], V[k+1], …`, `n` of them (LD [I],Vx, R84). -/
def State.regsFrom (s : State) (k : Nat) : Nat → List Byte
  | 0 => []
  | n + 1 => s.reg (BitVec.ofNat 4 k) :: State.regsFrom s (k + 1) n

/-! ### Program counter (R12) -/

/-- Jump to an address. -/
def State.jump (s : State) (a : Addr) : State := { s with pc := a }

/-- A skip: `PC <- PC + 2` if the condition holds (00_scope.md, glossary). -/
def State.skipIf (s : State) (c : Bool) : State := if c then { s with pc := s.pc + 2 } else s

/-- Undo the fetch advance (44_input_timer.md R89). -/
def State.rewind (s : State) : State := { s with pc := s.pc - 2 }

/-! ### Call stack (R14) -/

/-- Push a return address; none if all 16 entries are occupied (41_control_flow.md R61). -/
def State.push (s : State) (a : Addr) : Option State :=
  if h : s.sp.val = 16 then none
  else some { s with stack := s.stack.set s.sp.val a (by omega), sp := ⟨s.sp.val + 1, by omega⟩ }

/-- Pop a return address, keeping the entry; none if no entry is occupied (R59). -/
def State.pop (s : State) : Option (Addr × State) :=
  if h : s.sp.val = 0 then none
  else some (s.stack[s.sp.val - 1]'(by omega), { s with sp := ⟨s.sp.val - 1, by omega⟩ })

/-! ### Taking a fault (60_exceptions.md R96) and leaving the halted state (R97, R102) -/

/-- The numeric code of a cause (R93). -/
def causeCode : Cause → Nat
  | .fetchOob => 1
  | .memRead => 2
  | .memWrite => 3
  | .stackOverflow => 4
  | .stackUnderflow => 5
  | .indexOverflow => 6

/-- Fault entry (R96): PC holds `p`, the address of the faulting instruction, FAULT records it, nothing else changes. -/
def State.enterFault (s : State) (p : Addr) (c : Cause) (a : Nat) : State :=
  { s with pc := p, fault := some ⟨c, p, a⟩ }

/-- `raise Fault(c, a)` inside an instruction, where PC stands 2 beyond the address it was fetched from. -/
def State.raise (s : State) (c : Cause) (a : Nat) : State := s.enterFault (s.pc - 2) c a

/-- Do `k` after checking the whole access of `n` bytes at `base`; raise the fault `c` if it leaves memory (R94). -/
def State.access (s : State) (c : Cause) (base n : Nat) (k : State) : Result :=
  match outsideAt base n with
  | some a => .next (s.raise c a)
  | none => .next k

/-- The host's `reset()` (70_reset_and_hazards.md R108), the only way out of the halted state: every component to its
reset value but KEYS (decision D5). The model's `draws` goes on too, so that later draws stay fresh (log 3). -/
def State.hostReset (s : State) : State := { State.reset with keys := s.keys, draws := s.draws }

/-! ### Random draws (42_alu.md R78) -/

/-- Count one draw of the free byte. -/
def State.countDraw (s : State) : State := { s with draws := s.draws + 1 }

/-! ### Key set (10_state.md R16) -/

/-- The 16 key codes. -/
def allKeys : List Key := [0x0, 0x1, 0x2, 0x3, 0x4, 0x5, 0x6, 0x7, 0x8, 0x9, 0xA, 0xB, 0xC, 0xD, 0xE, 0xF]

/-- Is the value the code of a key in the set? A value of 16 or more never is (44_input_timer.md R86). -/
def keyHeld (keys : KeySet) (code : Nat) : Bool := keys.toList.getD code false

/-- Is the set empty? -/
def keysEmpty (keys : KeySet) : Bool := allKeys.all (fun k => !keyHeld keys k.toNat)

/-- `keyChoice` (R89, decision D13): any member of a non-empty set, a function of the set alone. The free value
`Config.keyPick` gives the member; where it is none, the first member in code order (log 4). -/
def keyChoice (keys : KeySet) : Key :=
  if keyHeld keys (Config.keyPick keys).toNat then Config.keyPick keys
  else (allKeys.find? (fun k => keyHeld keys k.toNat)).getD 0

/-! ### Display controller (40_display.md R53 to R56) -/

/-- Every cell off. -/
def Display.clear : Display := Vector.replicate 32 (Vector.replicate 64 false)

/-- `get_pixel(px, py)`. -/
def Display.getPixel (d : Display) (px : Fin 64) (py : Fin 32) : Bool := d[py.val][px.val]

/-- `set_pixel(px, py, v)`. -/
def Display.setPixel (d : Display) (px : Fin 64) (py : Fin 32) (b : Bool) : Display :=
  d.set py.val (d[py.val].set px.val b)

/-- Column `c` of a row byte is bit `7 - c`: the most significant bit is leftmost (R55). -/
def spriteBit (b : Byte) (c : Nat) : Bool := b.getLsbD (7 - c)

/-- Display column of sprite column `c` (R54). -/
def spriteX (x0 : Byte) (c : Nat) : Fin 64 := Fin.ofNat 64 (x0.toNat + c)

/-- Display row of sprite row `r` (R54). -/
def spriteY (y0 : Byte) (r : Nat) : Fin 32 := Fin.ofNat 32 (y0.toNat + r)

/-- Toggle one cell; the collision is noted if it was on (R56). -/
def toggleCell (px : Fin 64) (py : Fin 32) (acc : Display × Bool) : Display × Bool :=
  (acc.1.setPixel px py (!acc.1.getPixel px py), acc.2 || acc.1.getPixel px py)

/-- One row byte, its columns 0 to 7 in order (R56). -/
def drawRow (x0 y0 : Byte) (r : Nat) (b : Byte) (acc : Display × Bool) : Display × Bool :=
  [0, 1, 2, 3, 4, 5, 6, 7].foldl
    (fun acc c => if spriteBit b c then toggleCell (spriteX x0 c) (spriteY y0 r) acc else acc) acc

/-- Row bytes from sprite row `r` on, in order (R56). -/
def drawRows (x0 y0 : Byte) : Nat → List Byte → Display × Bool → Display × Bool
  | _, [], acc => acc
  | r, b :: bs, acc => drawRows x0 y0 (r + 1) bs (drawRow x0 y0 r b acc)

/-- `draw(x0, y0, rows)`: the display after it, and whether it collided (R56). -/
def Display.draw (d : Display) (x0 y0 : Byte) (rows : List Byte) : Display × Bool :=
  drawRows x0 y0 0 rows (d, false)

end Sys2Proof.Machine
end

