-- ==== Sys2Proof/Machine/Operands.lean ====
section
/-! DEFINITION. Every operand form (30_encoding.md R41) and every address an instruction forms. -/

namespace Sys2Proof.Machine

/-- `zext_16(nnn)`: an absolute target or index value (R41). -/
def absAddr (nnn : Addr12) : Addr := nnn.setWidth 16

/-- `zext_16(nnn) + V[0]`, at most 0x10FE (41_control_flow.md R66). -/
def State.offsetTarget (s : State) (nnn : Addr12) : Addr := nnn.setWidth 16 + (s.reg 0).setWidth 16

/-- `V[x] * 5`, unmasked, at most 1275 (43_index_memory.md R82). -/
def State.glyphAddr (s : State) (x : Reg) : Addr := BitVec.ofNat 16 ((s.reg x).toNat * 5)

/-- `I + V[x]`, unbounded (R81). -/
def State.indexSum (s : State) (x : Reg) : Nat := s.i.toNat + (s.reg x).toNat

/-- The base address of every data access: I, as an unbounded number (20_memory.md R33). -/
def State.base (s : State) : Nat := s.i.toNat

/-- The number of registers LD [I],Vx and LD Vx,[I] move: V0..Vx (R84, R85). -/
def regCount (x : Reg) : Nat := x.toNat + 1

/-- The decimal digits of a byte, hundreds first (R83). -/
def bcdDigits (v : Byte) : List Byte :=
  [BitVec.ofNat 8 (v.toNat / 100), BitVec.ofNat 8 (v.toNat / 10 % 10), BitVec.ofNat 8 (v.toNat % 10)]

/-- A key code as a register value (44_input_timer.md R89). -/
def keyByte (k : Key) : Byte := k.setWidth 8

end Sys2Proof.Machine
end

