-- ==== Sys2Proof/Machine/Alu.lean ====
section
/-! DEFINITION. The register arithmetic and logic instructions (42_alu.md). The order of the result's and the flag's
writes is that of decision D10. -/

namespace Sys2Proof.Machine

/-- LD Vx, kk (R67). -/
def execLdImm (x : Reg) (kk : Byte) (s : State) : Result := .next (s.setReg x kk)

/-- ADD Vx, kk, without a flag (R68). -/
def execAddImm (x : Reg) (kk : Byte) (s : State) : Result := .next (s.setReg x (s.reg x + kk))

/-- LD Vx, Vy (R69). -/
def execLdReg (x y : Reg) (s : State) : Result := .next (s.setReg x (s.reg y))

/-- OR Vx, Vy (R70). -/
def execOrReg (x y : Reg) (s : State) : Result := .next (s.setReg x (s.reg x ||| s.reg y))

/-- AND Vx, Vy (R71). -/
def execAndReg (x y : Reg) (s : State) : Result := .next (s.setReg x (s.reg x &&& s.reg y))

/-- XOR Vx, Vy (R72). -/
def execXorReg (x y : Reg) (s : State) : Result := .next (s.setReg x (s.reg x ^^^ s.reg y))

/-- Write the result, then the flag: with x = 15, VF ends holding the flag (decision D10). -/
def State.resultThenFlag (s : State) (x : Reg) (result flag : Byte) : State :=
  (s.setReg x result).setReg vf flag

/-- ADD Vx, Vy (R73). -/
def execAddReg (x y : Reg) (s : State) : Result :=
  .next (s.resultThenFlag x (s.reg x + s.reg y) (carryFlag (s.reg x) (s.reg y)))

/-- SUB Vx, Vy (R74). -/
def execSubReg (x y : Reg) (s : State) : Result :=
  .next (s.resultThenFlag x (s.reg x - s.reg y) (noBorrowFlag (s.reg x) (s.reg y)))

/-- SUBN Vx, Vy (R76). -/
def execSubnReg (x y : Reg) (s : State) : Result :=
  .next (s.resultThenFlag x (s.reg y - s.reg x) (noBorrowFlag (s.reg y) (s.reg x)))

/-- Write the flag, then shift the CURRENT Vx: with x = 15 the flag is what is shifted (decision D10). -/
def State.flagThenResult (s : State) (x : Reg) (flag : Byte) (f : Byte → Byte) : State :=
  (s.setReg vf flag).setReg x (f ((s.setReg vf flag).reg x))

/-- SHR Vx (R75); `y` is ignored. -/
def execShr (x _y : Reg) (s : State) : Result := .next (s.flagThenResult x (shrFlag (s.reg x)) (fun b => b >>> 1))

/-- SHL Vx (R77); `y` is ignored. -/
def execShl (x _y : Reg) (s : State) : Result := .next (s.flagThenResult x (shlFlag (s.reg x)) (fun b => b <<< 1))

/-- RND Vx, kk (R78): the next free byte, masked. -/
def execRnd (x : Reg) (kk : Byte) (s : State) : Result :=
  .next (s.countDraw.setReg x (Config.rnd s.draws &&& kk))

end Sys2Proof.Machine
end

