-- ==== Sys2Proof/Machine/Display.lean ====
section
/-! DEFINITION. The display instructions (40_display.md R57, R58). -/

namespace Sys2Proof.Machine

/-- CLS (R57). -/
def execCls (s : State) : Result := .next { s with disp := Display.clear }

/-- The display and the collision of DRW Vx, Vy, n, from the coordinates and the memory before it (R58). -/
def State.drawn (s : State) (x y : Reg) (n : Nibble) : Display × Bool :=
  s.disp.draw (s.reg x) (s.reg y) (s.mem.readBytes s.base n.toNat)

/-- DRW Vx, Vy, n (R58): coordinates are read before VF is written, and VF is written last (decision D24). -/
def execDrw (x y : Reg) (n : Nibble) (s : State) : Result :=
  s.access .memRead s.base n.toNat
    (({ s with disp := (s.drawn x y n).1 } : State).setReg vf (collisionFlag (s.drawn x y n).2))

end Sys2Proof.Machine
end

