-- ==== Sys2Proof/Machine/IndexMemory.lean ====
section
/-! DEFINITION. The index register and memory transfer instructions (43_index_memory.md). None changes I but the
three loads of it (decision D17). -/

namespace Sys2Proof.Machine

/-- LD I, nnn (R80). -/
def execLdI (nnn : Addr12) (s : State) : Result := .next { s with i := absAddr nnn }

/-- ADD I, Vx (R81): a sum that does not fit 16 bits faults and is recorded unbounded (R98). -/
def execAddI (x : Reg) (s : State) : Result :=
  if s.indexSum x > 0xFFFF then .next (s.raise .indexOverflow (s.indexSum x))
  else .next { s with i := BitVec.ofNat 16 (s.indexSum x) }

/-- LD F, Vx (R82). -/
def execLdF (x : Reg) (s : State) : Result := .next { s with i := s.glyphAddr x }

/-- LD B, Vx (R83). -/
def execLdB (x : Reg) (s : State) : Result :=
  s.access .memWrite s.base 3 { s with mem := s.mem.writeBytes s.base (bcdDigits (s.reg x)) }

/-- LD [I], Vx (R84). -/
def execLdMemVx (x : Reg) (s : State) : Result :=
  s.access .memWrite s.base (regCount x) { s with mem := s.mem.writeBytes s.base (s.regsFrom 0 (regCount x)) }

/-- LD Vx, [I] (R85). -/
def execLdVxMem (x : Reg) (s : State) : Result :=
  s.access .memRead s.base (regCount x) (s.setRegs 0 (s.mem.readBytes s.base (regCount x)))

end Sys2Proof.Machine
end

