-- ==== Sys2Proof/Machine/InputTimer.lean ====
section
/-! DEFINITION. The input and timer instructions (44_input_timer.md). -/

namespace Sys2Proof.Machine

/-- SKP Vx (R86). -/
def execSkp (x : Reg) (s : State) : Result := .next (s.skipIf (keyHeld s.keys (s.reg x).toNat))

/-- SKNP Vx (R87). -/
def execSknp (x : Reg) (s : State) : Result := .next (s.skipIf (!keyHeld s.keys (s.reg x).toNat))

/-- LD Vx, DT (R88). -/
def execLdVxDt (x : Reg) (s : State) : Result := .next (s.setReg x s.dt)

/-- LD Vx, K (R89): with no key held PC goes back to this instruction; else the chosen key is loaded. -/
def execLdVxK (x : Reg) (s : State) : Result :=
  if keysEmpty s.keys then .next s.rewind
  else .next (s.setReg x (keyByte (keyChoice s.keys)))

/-- LD DT, Vx (R90). -/
def execLdDtVx (x : Reg) (s : State) : Result := .next { s with dt := s.reg x }

/-- LD ST, Vx (R91): "accepted, no effect"; there is no sound timer (10_state.md R19, decision D18). -/
def execLdStVx (_x : Reg) (s : State) : Result := .next s

end Sys2Proof.Machine
end

