-- ==== Sys2Proof/Machine/Cycle.lean ====
section
/-! DEFINITION. The execution cycle (30_encoding.md R46, R47) and the delay timer's aging (60_exceptions.md R100). -/

namespace Sys2Proof.Machine

/-- `age_timer()` (R100): one down, never below 0. -/
def ageTimer (s : State) : State := if s.dt = 0 then s else { s with dt := s.dt - 1 }

/-- The word at an address, big-endian (20_memory.md R30). -/
def Memory.wordAt (m : Memory) (a : Nat) : Word := wordOfBytes (m.read a) (m.read (a + 1))

/-- `fetch()` (R47): the word at PC and the state with PC advanced by 2, or the state after the fault entry. -/
def fetch (s : State) : Except State (Word × State) :=
  match outsideAt s.pc.toNat 2 with
  | some a => .error (s.enterFault s.pc .fetchOob a)
  | none => .ok (s.mem.wordAt s.pc.toNat, { s with pc := s.pc + 2 })

/-- What a fetched word does to the state after the fetch: its instruction's effect, or nothing more (R45). -/
def runDecoded : Decoded → State → Result
  | .instr i, s => exec i s
  | .nop, s => .next s

/-- `execute_one()` (R46). -/
def executeOne (s : State) : Result :=
  match fetch s with
  | .error t => .next t
  | .ok (op, t) => runDecoded (decode op) t

/-- `execute_only()` (R46): no effect while halted (R97), no aging. -/
def executeOnly (s : State) : Result :=
  match s.fault with
  | some _ => .next s
  | none => executeOne s

/-- `tick()`, also called `step()` (R46, 90_conflicts.md C4): no effect while halted, else aging, then one
instruction. -/
def tick (s : State) : Result :=
  match s.fault with
  | some _ => .next s
  | none => executeOne (ageTimer s)

/-- The state in which the next fetch finds the word `op`: stored big-endian at PC, with no fault pending, and with PC
at 0x200 if it stood where no whole word can be stored (log 8). -/
def State.placeWord (s : State) (op : Word) : State :=
  let p : Addr := if s.pc.toNat + 2 ≤ 4096 then s.pc else 0x200
  { s with pc := p, fault := none, mem := s.mem.writeBytes p.toNat [hiByte op, loByte op] }

end Sys2Proof.Machine
end

