-- ==== Sys2Proof/Machine/HostOps.lean ====
section
/-! DEFINITION. The host's calls (70_reset_and_hazards.md R108 to R114). -/

namespace Sys2Proof.Machine

/-- `load_program(bytes)` (R112): the image at 0x200, PC at 0x200, nothing else; FAULT is not cleared (R97). A longer
image breaks the host's duty and has no move (R113). -/
def hostLoadProgram (bytes : List Byte) (s : State) : Result :=
  if bytes.length ≤ 3584 then .next { s with mem := s.mem.writeBytes 0x200 bytes, pc := 0x200 }
  else .refused .programTooLong

/-- The set of the given codes. -/
def keySetOf (codes : List Nat) : KeySet :=
  Vector.ofFn (fun k : Fin 16 => codes.contains k.val)

/-- `set_keys(S)` (R110): KEYS is replaced whole. A code above 0xF breaks the host's duty and has no move (R113). -/
def hostSetKeys (codes : List Nat) (s : State) : Result :=
  if codes.all (fun k => decide (k < 16)) then .next { s with keys := keySetOf codes }
  else .refused .keyCodeOutOfRange

/-- `get_display_buffer()` (R111, decision D25): the cells in row-major order, cell (px, py) at `py * 64 + px`. -/
def displayBuffer (s : State) : List Bool := (s.disp.toList.map Vector.toList).flatten

/-- What a call does to the machine (R113). -/
def hostCall : HostCall → State → Result
  | .reset, s => .next s.hostReset
  | .loadProgram bytes, s => hostLoadProgram bytes s
  | .setKeys codes, s => hostSetKeys codes s
  | .tick, s => tick s
  | .executeOnly, s => executeOnly s
  | .getDisplayBuffer, s => .next s

end Sys2Proof.Machine
end

