-- ==== Sys2Proof/Safety.lean ====
section
/-! DEFINITION. What counts as a good and a bad end of a run (70_reset_and_hazards.md R116), and the invariants of the
machine the statements use. -/

namespace Sys2Proof.Machine

/-- A failed end (R116): any halted state (60_exceptions.md R97). -/
def State.failedEnd (s : State) : Prop := s.fault ≠ none

/-- A normal end (R116): no fault, and PC holds the address `a` of a self-jump `1aaa`. -/
def State.normalEnd (s : State) : Prop :=
  s.fault = none ∧ s.pc.toNat + 2 ≤ 4096 ∧ s.mem.wordAt s.pc.toNat = formatA 0x1 (s.pc.setWidth 12)

/-- The bounds of 10_state.md R12: PC is at most 0x10FE, and every occupied stack entry, a pushed return address, is
at most 4096. -/
def State.pcBounded (s : State) : Prop :=
  s.pc.toNat ≤ 0x10FE ∧ ∀ k : Fin 16, k.val < s.sp.val → s.stack[k.val].toNat ≤ 4096

/-- The condition a cause of 60_exceptions.md R93 records, over the state the fault left (R96), and the `addr` it
records. An access fault says that its access left memory: with its base `I`, or with `I` within the 16 bytes below
the end of memory. -/
def faultCondition (s : State) (addr : Nat) : Cause → Prop
  | .fetchOob => s.pc.toNat + 2 > 4096 ∧ addr = max s.pc.toNat 4096
  | .memRead => s.i.toNat + 16 > 4096 ∧ addr = max s.i.toNat 4096
  | .memWrite => s.i.toNat + 16 > 4096 ∧ addr = max s.i.toNat 4096
  | .stackOverflow => s.sp.val = 16 ∧ addr = 16
  | .stackUnderflow => s.sp.val = 0 ∧ addr = 0
  | .indexOverflow => addr > 0xFFFF ∧ ∃ x : Reg, addr = s.i.toNat + (s.reg x).toNat

/-- A halted state is precise: FAULT holds the PC the machine stopped at and what the cause's row of R93 says. -/
def State.faultPrecise (s : State) : Prop :=
  ∀ r, s.fault = some r → r.pc = s.pc ∧ faultCondition s r.addr r.cause

/-- What every step keeps: canonical memory, bounded PC, a precise FAULT. -/
def State.Inv (s : State) : Prop := s.mem.wf = true ∧ s.pcBounded ∧ s.faultPrecise

end Sys2Proof.Machine
end

