-- ==== Sys2Proof/Certificates/Slice0/Obligations.lean ====
section
/-! DEFINITION. The statements for the provers, from the numbered rules of spec/. `exec` runs an instruction AFTER its
fetch (30_encoding.md R47), so in a statement about `exec i s` the PC of `s` is the instruction's address + 2. Every clause about a word's bits rests
on the spec's decision D1, by which R40, R42 and R43 adopt the conventional encodings (log 6); the fault causes, their
record and the halted state rest on its decisions D6 to D9 (log 19), and the order of the result's and the flag's writes
with x = 15 on D10 (log 15). -/

namespace Sys2Proof.Machine

/-! ### The statements' own vocabulary, written from the spec -/

/-- `t` differs from `s` in nothing but V0..VF. -/
def OnlyRegs (s t : State) : Prop := t = { s with v := t.v }

/-- The state after an instruction raised a fault (60_exceptions.md R96), from the state after its fetch. -/
def faultedFrom (s : State) (c : Cause) (a : Nat) : State :=
  { s with pc := s.pc - 2, fault := some ⟨c, s.pc - 2, a⟩ }

/-- The fault an instruction raises and the `addr` it records, by the table of 60_exceptions.md R93. -/
def faultOf : Instr → State → Option (Cause × Nat)
  | .ret, s => if s.sp.val = 0 then some (.stackUnderflow, 0) else none
  | .call _, s => if s.sp.val = 16 then some (.stackOverflow, 16) else none
  | .addI x, s =>
    if s.i.toNat + (s.reg x).toNat > 0xFFFF then some (.indexOverflow, s.i.toNat + (s.reg x).toNat) else none
  | .drw _ _ n, s =>
    if n ≠ 0 ∧ s.i.toNat + n.toNat > 4096 then some (.memRead, max s.i.toNat 4096) else none
  | .ldVxMem x, s => if s.i.toNat + x.toNat ≥ 4096 then some (.memRead, max s.i.toNat 4096) else none
  | .ldB _, s => if s.i.toNat + 2 ≥ 4096 then some (.memWrite, max s.i.toNat 4096) else none
  | .ldMemVx x, s => if s.i.toNat + x.toNat ≥ 4096 then some (.memWrite, max s.i.toNat 4096) else none
  | _, _ => none

/-- The registers an instruction may write (10_state.md R10, R23). -/
def mayWriteReg : Instr → Reg → Bool
  | .ldImm x _, r | .addImm x _, r | .ldReg x _, r | .orReg x _, r | .andReg x _, r | .xorReg x _, r => r == x
  | .rnd x _, r | .ldVxDt x, r | .ldVxK x, r => r == x
  | .addReg x _, r | .subReg x _, r | .shr x _, r | .subnReg x _, r | .shl x _, r => r == x || r == 15
  | .drw _ _ _, r => r == 15
  | .ldVxMem x, r => decide (r.toNat ≤ x.toNat)
  | _, _ => false

/-- The instructions that may write I (10_state.md R11). -/
def mayWriteI : Instr → Bool
  | .ldI _ | .addI _ | .ldF _ => true
  | _ => false

/-- How many bytes an instruction stores at I (20_memory.md R32). -/
def storedBytes : Instr → Nat
  | .ldB _ => 3
  | .ldMemVx x => x.toNat + 1
  | _ => 0

/-- Does the sprite of DRW Vx, Vy, n cover a cell: some 1 bit, bit `7 - c` of row `r`, lands on it (40_display.md R54,
R55)? -/
def SpriteHits (s : State) (x y : Reg) (n : Nibble) (px : Fin 64) (py : Fin 32) : Prop :=
  ∃ r c : Nat, r < n.toNat ∧ c < 8 ∧ px.val = ((s.reg x).toNat + c) % 64 ∧ py.val = ((s.reg y).toNat + r) % 32 ∧
    (s.mem.read (s.i.toNat + r)).toNat / 2 ^ (7 - c) % 2 = 1

end Sys2Proof.Machine

open Sys2Proof Sys2Proof.Machine

/-! ### Decoding and encoding -/

/-- Every instruction is decoded from its own encoding, with every operand at every value, under either setting of
SKIP_REG_STRICT (30_encoding.md R42, R43, R44). -/
def Obligations.DecodeOfEncodeIsTheInstruction : Prop :=
  ∀ (strict : Bool) (i : Instr), i.wellFormed = true → decodeWith strict (encode i) = .instr i

/-- A word that decodes to an instruction is that instruction's encoding: no bit of it is ignored or dropped. -/
def Obligations.EncodeOfDecodeIsTheWord : Prop :=
  ∀ (op : Word) (i : Instr), decode op = .instr i → encode i = op

/-- At most one row of the opcode map recognises any word (R43), under either setting of SKIP_REG_STRICT. -/
def Obligations.AtMostOneRowMatchesAWord : Prop :=
  ∀ (strict : Bool) (op : Word), ((opRows strict).filter (fun r => op &&& r.mask == r.pattern)).length ≤ 1

/-- R44: a word is an instruction exactly when it agrees with a row on every bit of the row's mask. So 5xyN and 9xyN
with N ≠ 0 are none and 00E1 is not CLS; with SKIP_REG_STRICT false any low nibble is accepted there. -/
def Obligations.WordsMatchARowOnEveryMaskBit : Prop :=
  (∀ (strict : Bool) (op : Word),
    decodeWith strict op = .nop ↔ ∀ r ∈ opRows strict, op &&& r.mask ≠ r.pattern) ∧
  (∀ (x y : Reg) (n : Nibble), n ≠ 0 →
    decode (0x5#4 ++ x ++ y ++ n) = .nop ∧ decode (0x9#4 ++ x ++ y ++ n) = .nop) ∧
  (∀ (x y : Reg) (n : Nibble),
    decodeWith false (0x5#4 ++ x ++ y ++ n) = .instr (.seReg x y) ∧
    decodeWith false (0x9#4 ++ x ++ y ++ n) = .instr (.sneReg x y)) ∧
  skipRegStrict = true ∧ decode 0x00E1 = .nop

/-- The unrecognised words, class by class, as R45 lists them. -/
def Obligations.UnrecognisedWordsAreTheListedClasses : Prop :=
  ∀ op : Word, decode op = .nop ↔
    (op.toNat / 4096 = 0x0 ∧ op ≠ 0x00E0 ∧ op ≠ 0x00EE) ∨
    ((op.toNat / 4096 = 0x5 ∨ op.toNat / 4096 = 0x9) ∧ op.toNat % 16 ≠ 0) ∨
    (op.toNat / 4096 = 0x8 ∧ op.toNat % 16 ∈ [0x8, 0x9, 0xA, 0xB, 0xC, 0xD, 0xF]) ∨
    (op.toNat / 4096 = 0xE ∧ op.toNat % 256 ∉ [0x9E, 0xA1]) ∨
    (op.toNat / 4096 = 0xF ∧ op.toNat % 256 ∉ [0x07, 0x0A, 0x15, 0x18, 0x1E, 0x29, 0x33, 0x55, 0x65])

/-- A word of each family, written out from R43, decodes to what it stands for; an unlisted word is no instruction. -/
def Obligations.SampleWordsDecodeAsListed : Prop :=
  decode 0x00EE = .instr .ret ∧ decode 0x2ABC = .instr (.call 0xABC) ∧ decode 0x3A42 = .instr (.seImm 0xA 0x42) ∧
  decode 0x8F14 = .instr (.addReg 0xF 0x1) ∧ decode 0x812E = .instr (.shl 0x1 0x2) ∧
  decode 0xD125 = .instr (.drw 0x1 0x2 0x5) ∧ decode 0xE5A1 = .instr (.sknp 0x5) ∧
  decode 0xF41E = .instr (.addI 0x4) ∧ decode 0xFB65 = .instr (.ldVxMem 0xB) ∧ decode 0x0123 = .nop

/-! ### The execution cycle -/

/-- R47: the fetch takes the two bytes at PC big-endian and advances PC by 2 without a wrap; if a byte address is 4096
or more it faults with the lower such address, and PC is not advanced. -/
def Obligations.FetchReadsBigEndianAndAdvances : Prop :=
  ∀ s : State,
    (s.pc.toNat + 1 < 4096 →
      ∃ op t, fetch s = .ok (op, t) ∧
        op.toNat = (s.mem.read s.pc.toNat).toNat * 256 + (s.mem.read (s.pc.toNat + 1)).toNat ∧
        t = { s with pc := t.pc } ∧ t.pc.toNat = s.pc.toNat + 2) ∧
    (s.pc.toNat + 1 ≥ 4096 →
      fetch s = .error { s with
        fault := some ⟨.fetchOob, s.pc, if s.pc.toNat ≥ 4096 then s.pc.toNat else s.pc.toNat + 1⟩ })

/-- A step runs the instruction the word at PC decodes to: on a machine that is not halted it ages the timer, advances
PC by 2, and is then `exec` of that instruction (R46, R47). -/
def Obligations.StepRunsTheDecodedInstruction : Prop :=
  ∀ (s : State) (i : Instr), s.fault = none → s.pc.toNat + 1 < 4096 →
    decode (wordOfBytes (s.mem.read s.pc.toNat) (s.mem.read (s.pc.toNat + 1))) = .instr i →
    step s = exec i { s with dt := if s.dt = 0 then 0 else s.dt - 1, pc := s.pc + 2 }

/-- A step on an unrecognised word only ages the timer and advances PC by 2 (R45, R46). -/
def Obligations.StepOnUnrecognisedWordOnlyAdvances : Prop :=
  ∀ s : State, s.fault = none → s.pc.toNat + 1 < 4096 →
    decode (wordOfBytes (s.mem.read s.pc.toNat) (s.mem.read (s.pc.toNat + 1))) = .nop →
    step s = .next { s with dt := if s.dt = 0 then 0 else s.dt - 1, pc := s.pc + 2 }

/-- R100: a tick ages DT by one, never below 0, and is then `execute_only`, which ages nothing: after it DT is as
before, unless the instruction is LD DT,Vx. A halted machine does not age. -/
def Obligations.TickAgesTheTimerOnceBeforeTheFetch : Prop :=
  (∀ s : State, s.fault = none →
    ∃ u : State, u = { s with dt := u.dt } ∧ u.dt.toNat = s.dt.toNat - 1 ∧ tick s = executeOnly u) ∧
  (∀ s t : State, executeOnly s = .next t →
    t.dt = s.dt ∨ ∃ x, decode (wordOfBytes (s.mem.read s.pc.toNat) (s.mem.read (s.pc.toNat + 1))) =
      .instr (.ldDtVx x) ∧ t.dt = s.reg x) ∧
  (∀ s t : State, s.fault ≠ none → tick s = .next t → t.dt = s.dt)

/-- No step stops outside the spec's own state: every step of every state, and every instruction in every state,
answers a next state. -/
def Obligations.EveryStepAnswersANextState : Prop :=
  (∀ s : State, ∃ t, step s = .next t) ∧ (∀ (i : Instr) (s : State), ∃ t, exec i s = .next t)

/-! ### Faults and the halted state -/

/-- R96: fault entry is precise. A step that ends halted changes nothing but the aged timer and FAULT, which records
the address the step began at. -/
def Obligations.FaultEntryIsPrecise : Prop :=
  ∀ s t : State, s.fault = none → step s = .next t → t.fault ≠ none →
    ∃ c a, t = { s with dt := if s.dt = 0 then 0 else s.dt - 1, fault := some ⟨c, s.pc, a⟩ }

/-- R93: which instruction raises which fault, under which condition, recording which address; no other instruction
raises one; and the causes' codes. The fetch's row is the last clause. -/
def Obligations.FaultsAreThoseOfTheTable : Prop :=
  (∀ (i : Instr) (s : State), s.fault = none →
    ∃ t, exec i s = .next t ∧
      (∀ c a, faultOf i s = some (c, a) → t = faultedFrom s c a) ∧ (faultOf i s = none → t.fault = none)) ∧
  [Cause.fetchOob, .memRead, .memWrite, .stackOverflow, .stackUnderflow, .indexOverflow].map causeCode =
    [1, 2, 3, 4, 5, 6] ∧
  (∀ s : State, s.pc.toNat ≥ 4096 ∨ s.pc.toNat + 1 ≥ 4096 →
    ∃ t, fetch s = .error t ∧
      t.fault = some ⟨.fetchOob, s.pc, if s.pc.toNat ≥ 4096 then s.pc.toNat else s.pc.toNat + 1⟩)

/-- R97: while halted, tick and execute_only have no effect at all, set_keys and load_program keep theirs without
clearing FAULT, the display can be read, and reset clears FAULT. -/
def Obligations.HaltedMachineOnlyLeavesByReset : Prop :=
  ∀ s : State, s.fault ≠ none →
    step s = .next s ∧ hostCall .tick s = .next s ∧ hostCall .executeOnly s = .next s ∧
    hostCall .getDisplayBuffer s = .next s ∧
    (∀ codes : List Nat, (∀ k ∈ codes, k < 16) →
      ∃ t, hostCall (.setKeys codes) s = .next t ∧ t = { s with keys := t.keys } ∧
        ∀ k : Fin 16, t.keys[k.val] = true ↔ k.val ∈ codes) ∧
    (∀ bytes : List Byte, bytes.length ≤ 3584 →
      ∃ t, hostCall (.loadProgram bytes) s = .next t ∧ t.fault = s.fault ∧ t.pc = 0x200 ∧
        t.mem = s.mem.writeBytes 0x200 bytes) ∧
    (∃ t, hostCall .reset s = .next t ∧ t.fault = none)

/-! ### Control transfer -/

/-- R59: RET pops the return address into PC and keeps the popped entry, or underflows on an empty stack. -/
def Obligations.ReturnPopsOrUnderflows : Prop :=
  decode 0x00EE = .instr .ret ∧
  ∀ s : State,
    (s.sp.val = 0 → exec .ret s = .next (faultedFrom s .stackUnderflow 0)) ∧
    (∀ k : Fin 16, s.sp = k.succ → exec .ret s = .next { s with sp := k.castSucc, pc := s.stack[k.val] })

/-- R60: JP nnn. -/
def Obligations.JumpLoadsTheAddress : Prop :=
  ∀ nnn : Addr12, decode (0x1#4 ++ nnn) = .instr (.jp nnn) ∧
    ∀ s : State, ∃ t, exec (.jp nnn) s = .next t ∧ t = { s with pc := t.pc } ∧ t.pc.toNat = nnn.toNat

/-- R61: CALL pushes PC, the CALL's address + 2, and jumps, or overflows on a full stack; every other entry keeps its
value. -/
def Obligations.CallPushesOrOverflows : Prop :=
  ∀ nnn : Addr12, decode (0x2#4 ++ nnn) = .instr (.call nnn) ∧
    ∀ s : State,
      (s.sp.val = 16 → exec (.call nnn) s = .next (faultedFrom s .stackOverflow 16)) ∧
      (∀ k : Fin 16, s.sp = k.castSucc →
        ∃ t, exec (.call nnn) s = .next t ∧ t = { s with pc := t.pc, sp := k.succ, stack := t.stack } ∧
          t.pc.toNat = nnn.toNat ∧ ∀ j : Fin 16, t.stack[j.val] = if j = k then s.pc else s.stack[j.val])

/-- R62 and R63: SE and SNE with an immediate. -/
def Obligations.SkipsCompareWithTheImmediate : Prop :=
  ∀ (x : Reg) (kk : Byte),
    decode (0x3#4 ++ x ++ kk) = .instr (.seImm x kk) ∧ decode (0x4#4 ++ x ++ kk) = .instr (.sneImm x kk) ∧
    ∀ s : State,
      exec (.seImm x kk) s = .next (if s.reg x = kk then { s with pc := s.pc + 2 } else s) ∧
      exec (.sneImm x kk) s = .next (if s.reg x = kk then s else { s with pc := s.pc + 2 })

/-- R64 and R65: SE and SNE of two registers; with x = y the first always skips and the second never. -/
def Obligations.SkipsCompareTwoRegisters : Prop :=
  ∀ x y : Reg,
    decode (0x5#4 ++ x ++ y ++ 0x0#4) = .instr (.seReg x y) ∧
    decode (0x9#4 ++ x ++ y ++ 0x0#4) = .instr (.sneReg x y) ∧
    ∀ s : State,
      exec (.seReg x y) s = .next (if s.reg x = s.reg y then { s with pc := s.pc + 2 } else s) ∧
      exec (.sneReg x y) s = .next (if s.reg x = s.reg y then s else { s with pc := s.pc + 2 }) ∧
      (x = y → exec (.seReg x y) s = .next { s with pc := s.pc + 2 } ∧ exec (.sneReg x y) s = .next s)

/-- R66: JP V0, nnn adds V0 to the address without truncation; the register is always V0. -/
def Obligations.OffsetJumpAddsV0 : Prop :=
  ∀ nnn : Addr12, decode (0xB#4 ++ nnn) = .instr (.jpV0 nnn) ∧
    ∀ s : State, ∃ t, exec (.jpV0 nnn) s = .next t ∧ t = { s with pc := t.pc } ∧
      t.pc.toNat = nnn.toNat + (s.reg 0).toNat ∧ t.pc.toNat ≤ 0x10FE

/-- The round trip of R59: after CALL nnn and then RET the PC is the one after the CALL's own fetch, the CALL's
address + 2, and SP is as before. -/
def Obligations.ReturnUndoesCall : Prop :=
  ∀ (nnn : Addr12) (s t : State) (p : Addr), s.sp.val < 16 → exec (.call nnn) s = .next t →
    ∃ u, exec .ret { t with pc := p } = .next u ∧ u.pc = s.pc ∧ u.sp = s.sp

/-! ### Arithmetic and logic -/

/-- R67, R68, R69: LD Vx,kk; ADD Vx,kk, which wraps and sets no flag; LD Vx,Vy. Only Vx changes. -/
def Obligations.LoadsAndAddImmediateWriteOnlyVx : Prop :=
  ∀ (x y : Reg) (kk : Byte),
    decode (0x6#4 ++ x ++ kk) = .instr (.ldImm x kk) ∧ decode (0x7#4 ++ x ++ kk) = .instr (.addImm x kk) ∧
    decode (0x8#4 ++ x ++ y ++ 0x0#4) = .instr (.ldReg x y) ∧
    ∀ s : State,
      (∃ t, exec (.ldImm x kk) s = .next t ∧ OnlyRegs s t ∧ t.reg x = kk ∧ ∀ r, r ≠ x → t.reg r = s.reg r) ∧
      (∃ t, exec (.addImm x kk) s = .next t ∧ OnlyRegs s t ∧
        (t.reg x).toNat = ((s.reg x).toNat + kk.toNat) % 256 ∧ ∀ r, r ≠ x → t.reg r = s.reg r) ∧
      (∃ t, exec (.ldReg x y) s = .next t ∧ OnlyRegs s t ∧ t.reg x = s.reg y ∧ ∀ r, r ≠ x → t.reg r = s.reg r)

/-- R70, R71, R72: OR, AND, XOR, bit by bit; VF is not reset, and only Vx changes. -/
def Obligations.LogicOperationsActBitwise : Prop :=
  ∀ x y : Reg,
    decode (0x8#4 ++ x ++ y ++ 0x1#4) = .instr (.orReg x y) ∧
    decode (0x8#4 ++ x ++ y ++ 0x2#4) = .instr (.andReg x y) ∧
    decode (0x8#4 ++ x ++ y ++ 0x3#4) = .instr (.xorReg x y) ∧
    ∀ s : State,
      (∃ t, exec (.orReg x y) s = .next t ∧ OnlyRegs s t ∧ (∀ r, r ≠ x → t.reg r = s.reg r) ∧
        ∀ b < 8, (t.reg x).getLsbD b = ((s.reg x).getLsbD b || (s.reg y).getLsbD b)) ∧
      (∃ t, exec (.andReg x y) s = .next t ∧ OnlyRegs s t ∧ (∀ r, r ≠ x → t.reg r = s.reg r) ∧
        ∀ b < 8, (t.reg x).getLsbD b = ((s.reg x).getLsbD b && (s.reg y).getLsbD b)) ∧
      (∃ t, exec (.xorReg x y) s = .next t ∧ OnlyRegs s t ∧ (∀ r, r ≠ x → t.reg r = s.reg r) ∧
        ∀ b < 8, (t.reg x).getLsbD b = ((s.reg x).getLsbD b ^^ (s.reg y).getLsbD b))

/-- R73: ADD Vx,Vy wraps, and VF is 1 exactly when the sum exceeds 255; with x = 15 VF holds the flag. -/
def Obligations.AddRegistersSetsCarry : Prop :=
  ∀ x y : Reg, decode (0x8#4 ++ x ++ y ++ 0x4#4) = .instr (.addReg x y) ∧
    ∀ s : State, ∃ t, exec (.addReg x y) s = .next t ∧ OnlyRegs s t ∧
      (x ≠ 15 → (t.reg x).toNat = ((s.reg x).toNat + (s.reg y).toNat) % 256) ∧
      (t.reg 15).toNat = (if (s.reg x).toNat + (s.reg y).toNat > 255 then 1 else 0) ∧
      ∀ r, r ≠ x → r ≠ 15 → t.reg r = s.reg r

/-- R74 and R76: SUB and SUBN wrap, and VF is 1 exactly when there is no borrow; with x = 15 VF holds the flag. -/
def Obligations.SubtractionsSetNoBorrow : Prop :=
  ∀ x y : Reg,
    decode (0x8#4 ++ x ++ y ++ 0x5#4) = .instr (.subReg x y) ∧
    decode (0x8#4 ++ x ++ y ++ 0x7#4) = .instr (.subnReg x y) ∧
    ∀ s : State,
      (∃ t, exec (.subReg x y) s = .next t ∧ OnlyRegs s t ∧
        (x ≠ 15 → ((t.reg x).toNat : Int) = ((s.reg x).toNat - (s.reg y).toNat : Int) % 256) ∧
        (t.reg 15).toNat = (if (s.reg x).toNat ≥ (s.reg y).toNat then 1 else 0) ∧
        ∀ r, r ≠ x → r ≠ 15 → t.reg r = s.reg r) ∧
      (∃ t, exec (.subnReg x y) s = .next t ∧ OnlyRegs s t ∧
        (x ≠ 15 → ((t.reg x).toNat : Int) = ((s.reg y).toNat - (s.reg x).toNat : Int) % 256) ∧
        (t.reg 15).toNat = (if (s.reg y).toNat ≥ (s.reg x).toNat then 1 else 0) ∧
        ∀ r, r ≠ x → r ≠ 15 → t.reg r = s.reg r)

/-- R75: SHR halves Vx and puts its old bit 0 in VF; with x = 15 VF ends 0; `y` is accepted and ignored. -/
def Obligations.ShiftRightHalvesAndFlagsBit0 : Prop :=
  ∀ x y : Reg, decode (0x8#4 ++ x ++ y ++ 0x6#4) = .instr (.shr x y) ∧
    ∀ s : State, ∃ t, exec (.shr x y) s = .next t ∧ OnlyRegs s t ∧
      (x ≠ 15 → (t.reg x).toNat = (s.reg x).toNat / 2 ∧ (t.reg 15).toNat = (s.reg x).toNat % 2) ∧
      (x = 15 → t.reg 15 = 0) ∧
      ∀ r, r ≠ x → r ≠ 15 → t.reg r = s.reg r

/-- R77: SHL doubles Vx modulo 256 and puts 0x80 (not 1) in VF when bit 7 was set, else 0; with x = 15 VF ends 0;
`y` is accepted and ignored. -/
def Obligations.ShiftLeftDoublesAndFlags0x80 : Prop :=
  ∀ x y : Reg, decode (0x8#4 ++ x ++ y ++ 0xE#4) = .instr (.shl x y) ∧
    ∀ s : State, ∃ t, exec (.shl x y) s = .next t ∧ OnlyRegs s t ∧
      (x ≠ 15 → (t.reg x).toNat = (s.reg x).toNat * 2 % 256 ∧
        (t.reg 15).toNat = if (s.reg x).toNat ≥ 128 then 0x80 else 0) ∧
      (x = 15 → t.reg 15 = 0) ∧
      ∀ r, r ≠ x → r ≠ 15 → t.reg r = s.reg r

/-- RND (R78): Vx is a free byte masked by kk, so 0 for kk = 0 and only bits of kk can be 1; nothing else of the spec's
state changes. The form of the free byte, the next of `Config.rnd`, and the counter are the model's (log 3). -/
def Obligations.RandomByteIsMasked : Prop :=
  ∀ (x : Reg) (kk : Byte), decode (0xC#4 ++ x ++ kk) = .instr (.rnd x kk) ∧
    ∀ s : State, ∃ t, exec (.rnd x kk) s = .next t ∧ t = { s with v := t.v, draws := s.draws + 1 } ∧
      t.reg x = (Config.rnd s.draws &&& kk) ∧ (kk = 0 → t.reg x = 0) ∧
      (∀ b < 8, (t.reg x).getLsbD b = true → kk.getLsbD b = true) ∧ ∀ r, r ≠ x → t.reg r = s.reg r

/-! ### Index register and memory transfer -/

/-- R80 and R82: LD I,nnn, and LD F,Vx, which is Vx * 5 unmasked. -/
def Obligations.IndexLoadsFromAddressAndGlyph : Prop :=
  (∀ nnn : Addr12, decode (0xA#4 ++ nnn) = .instr (.ldI nnn) ∧
    ∀ s : State, ∃ t, exec (.ldI nnn) s = .next t ∧ t = { s with i := t.i } ∧ t.i.toNat = nnn.toNat) ∧
  (∀ x : Reg, decode (0xF#4 ++ x ++ 0x29#8) = .instr (.ldF x) ∧
    ∀ s : State, ∃ t, exec (.ldF x) s = .next t ∧ t = { s with i := t.i } ∧ t.i.toNat = (s.reg x).toNat * 5)

/-- R81: ADD I,Vx adds without a flag, or faults with the unbounded sum when it does not fit 16 bits. -/
def Obligations.AddToIndexOrOverflows : Prop :=
  ∀ x : Reg, decode (0xF#4 ++ x ++ 0x1E#8) = .instr (.addI x) ∧
    ∀ s : State,
      (s.i.toNat + (s.reg x).toNat > 0xFFFF →
        exec (.addI x) s = .next (faultedFrom s .indexOverflow (s.i.toNat + (s.reg x).toNat))) ∧
      (s.i.toNat + (s.reg x).toNat ≤ 0xFFFF →
        ∃ t, exec (.addI x) s = .next t ∧ t = { s with i := t.i } ∧ t.i.toNat = s.i.toNat + (s.reg x).toNat)

/-- R83: LD B,Vx stores the hundreds, tens and units of Vx at I, I+1, I+2 and nothing else, or faults without a write
when I+2 is outside memory. Reads after writes need memory in its canonical form, which every step keeps. -/
def Obligations.BcdStoresThreeDigits : Prop :=
  ∀ x : Reg, decode (0xF#4 ++ x ++ 0x33#8) = .instr (.ldB x) ∧
    ∀ s : State,
      (s.i.toNat + 2 ≥ 4096 → exec (.ldB x) s = .next (faultedFrom s .memWrite (max s.i.toNat 4096))) ∧
      (s.i.toNat + 2 < 4096 → s.mem.wf = true →
        ∃ t, exec (.ldB x) s = .next t ∧ t = { s with mem := t.mem } ∧
          (t.mem.read s.i.toNat).toNat = (s.reg x).toNat / 100 ∧
          (t.mem.read (s.i.toNat + 1)).toNat = (s.reg x).toNat / 10 % 10 ∧
          (t.mem.read (s.i.toNat + 2)).toNat = (s.reg x).toNat % 10 ∧
          ∀ a, a < s.i.toNat ∨ s.i.toNat + 3 ≤ a → t.mem.read a = s.mem.read a)

/-- R84: LD [I],Vx stores V0..Vx at I.. and nothing else, I unchanged, or faults without a write when I+x is outside
memory. -/
def Obligations.DumpStoresV0ToVx : Prop :=
  ∀ x : Reg, decode (0xF#4 ++ x ++ 0x55#8) = .instr (.ldMemVx x) ∧
    ∀ s : State,
      (s.i.toNat + x.toNat ≥ 4096 → exec (.ldMemVx x) s = .next (faultedFrom s .memWrite (max s.i.toNat 4096))) ∧
      (s.i.toNat + x.toNat < 4096 → s.mem.wf = true →
        ∃ t, exec (.ldMemVx x) s = .next t ∧ t = { s with mem := t.mem } ∧
          (∀ r : Reg, r.toNat ≤ x.toNat → t.mem.read (s.i.toNat + r.toNat) = s.reg r) ∧
          ∀ a, a < s.i.toNat ∨ s.i.toNat + x.toNat < a → t.mem.read a = s.mem.read a)

/-- R85: LD Vx,[I] loads V0..Vx from I.., VF among them only when x = 15, I unchanged, or faults without a write when
I+x is outside memory. -/
def Obligations.LoadFillsV0ToVx : Prop :=
  ∀ x : Reg, decode (0xF#4 ++ x ++ 0x65#8) = .instr (.ldVxMem x) ∧
    ∀ s : State,
      (s.i.toNat + x.toNat ≥ 4096 → exec (.ldVxMem x) s = .next (faultedFrom s .memRead (max s.i.toNat 4096))) ∧
      (s.i.toNat + x.toNat < 4096 →
        ∃ t, exec (.ldVxMem x) s = .next t ∧ OnlyRegs s t ∧
          ∀ r : Reg, t.reg r = if r.toNat ≤ x.toNat then s.mem.read (s.i.toNat + r.toNat) else s.reg r)

/-- The round trip of R85: a dump of V0..Vx, then a load through the same I and x with whatever the registers hold by
then, gives the dumped values back. -/
def Obligations.LoadUndoesDump : Prop :=
  ∀ (x : Reg) (s t u : State), s.mem.wf = true → s.i.toNat + x.toNat < 4096 → exec (.ldMemVx x) s = .next t →
    u.mem = t.mem → u.i = s.i →
    ∃ w, exec (.ldVxMem x) u = .next w ∧ ∀ r : Reg, r.toNat ≤ x.toNat → w.reg r = s.reg r

/-! ### Display -/

/-- R57: CLS turns every cell off and changes nothing else. -/
def Obligations.ClearScreenTurnsEveryCellOff : Prop :=
  decode 0x00E0 = .instr .cls ∧
  ∀ s : State, ∃ t, exec .cls s = .next t ∧ t = { s with disp := t.disp } ∧
    ∀ px py, t.disp.getPixel px py = false

/-- R54, R55, R56: `draw(x0, y0, rows)` toggles exactly the cells on which a 1 bit of a row byte lands, column `c` being
bit `7 - c` (the spec's decision D15, log 7), row `r` and column `c` wrapping modulo 32 and 64; it reports a collision
exactly when one of them was on. -/
def Obligations.SpriteBlitTogglesCellsAndReportsCollision : Prop :=
  ∀ (d : Display) (x0 y0 : Byte) (rows : List Byte), rows.length ≤ 15 →
    let hits := fun (px : Fin 64) (py : Fin 32) => ∃ r c : Nat, ∃ _ : r < rows.length, c < 8 ∧
      px.val = (x0.toNat + c) % 64 ∧ py.val = (y0.toNat + r) % 32 ∧ rows[r].toNat / 2 ^ (7 - c) % 2 = 1
    (∀ px py, (hits px py → (d.draw x0 y0 rows).1.getPixel px py = !d.getPixel px py) ∧
      (¬ hits px py → (d.draw x0 y0 rows).1.getPixel px py = d.getPixel px py)) ∧
    ((d.draw x0 y0 rows).2 = true ↔ ∃ px py, hits px py ∧ d.getPixel px py = true)

/-- DRW (R58 with R54, R55, R56): when every row is inside memory (always for n = 0), exactly the cells the sprite's 1
bits land on are toggled, VF is 1 if one of them was on and 0 otherwise, and nothing else changes; when a row is
outside memory the instruction faults and draws nothing. The coordinates are read before VF is written. -/
def Obligations.DrawTogglesTheSpriteCells : Prop :=
  ∀ (x y : Reg) (n : Nibble), decode (0xD#4 ++ x ++ y ++ n) = .instr (.drw x y n) ∧
    ∀ s : State,
      (n ≠ 0 ∧ s.i.toNat + n.toNat > 4096 →
        exec (.drw x y n) s = .next (faultedFrom s .memRead (max s.i.toNat 4096))) ∧
      (n = 0 ∨ s.i.toNat + n.toNat ≤ 4096 →
        ∃ t, exec (.drw x y n) s = .next t ∧ t = { s with v := t.v, disp := t.disp } ∧
          (∀ px py, (SpriteHits s x y n px py → t.disp.getPixel px py = !s.disp.getPixel px py) ∧
            (¬ SpriteHits s x y n px py → t.disp.getPixel px py = s.disp.getPixel px py)) ∧
          ((∃ px py, SpriteHits s x y n px py ∧ s.disp.getPixel px py = true) → t.reg 15 = 1) ∧
          ((∀ px py, SpriteHits s x y n px py → s.disp.getPixel px py = false) → t.reg 15 = 0) ∧
          ∀ r, r ≠ 15 → t.reg r = s.reg r)

/-- Drawing the same sprite at the same place twice restores the display (R58, corner cases). The second clause, that the
second draw collides exactly when the first one turned a cell on, is the MODEL'S READING (DEDUCED, log 22): it follows
R56 and R58's pseudocode against R58's sentence that any 1 bit makes the second draw collide. Every form is covered: a
coordinate in VF (x or y = 15), which the first draw writes, counts as the same place when VF comes out as it was, and
n = 0 reads no memory whatever I is. -/
def Obligations.DrawingTwiceRestoresTheDisplay : Prop :=
  ∀ (x y : Reg) (n : Nibble) (s t u : State), (x ≠ 15 ∧ y ≠ 15) ∨ t.reg 15 = s.reg 15 →
    n = 0 ∨ s.i.toNat + n.toNat ≤ 4096 →
    exec (.drw x y n) s = .next t → exec (.drw x y n) t = .next u →
    u.disp = s.disp ∧
    (u.reg 15 = 1 ↔ ∃ px py, t.disp.getPixel px py = true ∧ s.disp.getPixel px py = false)

/-! ### Input and timer -/

/-- R86 and R87: SKP skips when the key whose code is in Vx is held, SKNP when it is not; a value of 16 or more is
never held. -/
def Obligations.KeySkipsTestTheLiveKeySet : Prop :=
  ∀ x : Reg,
    decode (0xE#4 ++ x ++ 0x9E#8) = .instr (.skp x) ∧ decode (0xE#4 ++ x ++ 0xA1#8) = .instr (.sknp x) ∧
    ∀ s : State,
      (∀ k : Fin 16, (s.reg x).toNat = k.val →
        exec (.skp x) s = .next (if s.keys[k.val] = true then { s with pc := s.pc + 2 } else s) ∧
        exec (.sknp x) s = .next (if s.keys[k.val] = true then s else { s with pc := s.pc + 2 })) ∧
      ((s.reg x).toNat ≥ 16 →
        exec (.skp x) s = .next s ∧ exec (.sknp x) s = .next { s with pc := s.pc + 2 })

/-- R88, R90 and R91: LD Vx,DT and LD DT,Vx copy the timer, and LD ST,Vx has no effect. -/
def Obligations.TimerTransfersAndSoundNoOp : Prop :=
  ∀ x : Reg,
    decode (0xF#4 ++ x ++ 0x07#8) = .instr (.ldVxDt x) ∧ decode (0xF#4 ++ x ++ 0x15#8) = .instr (.ldDtVx x) ∧
    decode (0xF#4 ++ x ++ 0x18#8) = .instr (.ldStVx x) ∧
    ∀ s : State,
      (∃ t, exec (.ldVxDt x) s = .next t ∧ OnlyRegs s t ∧ t.reg x = s.dt ∧ ∀ r, r ≠ x → t.reg r = s.reg r) ∧
      exec (.ldDtVx x) s = .next { s with dt := s.reg x } ∧ exec (.ldStVx x) s = .next s

/-- R89: LD Vx,K with no key held goes back to its own address and changes nothing else, so a tick there only ages the
timer; with keys held it loads a member of the set, the choice being a function of the set alone. -/
def Obligations.KeyWaitRetriesOrLoadsAHeldKey : Prop :=
  (∀ x : Reg, decode (0xF#4 ++ x ++ 0x0A#8) = .instr (.ldVxK x)) ∧
  (∀ (x : Reg) (s : State), (∀ k : Fin 16, s.keys[k.val] = false) →
    exec (.ldVxK x) s = .next { s with pc := s.pc - 2 }) ∧
  (∀ (x : Reg) (s : State), s.fault = none → s.pc.toNat + 1 < 4096 → (∀ k : Fin 16, s.keys[k.val] = false) →
    decode (wordOfBytes (s.mem.read s.pc.toNat) (s.mem.read (s.pc.toNat + 1))) = .instr (.ldVxK x) →
    step s = .next { s with dt := if s.dt = 0 then 0 else s.dt - 1 }) ∧
  (∃ choose : KeySet → Fin 16,
    (∀ keys : KeySet, (∃ k : Fin 16, keys[k.val] = true) → keys[(choose keys).val] = true) ∧
    ∀ (x : Reg) (s : State), (∃ k : Fin 16, s.keys[k.val] = true) →
      ∃ t, exec (.ldVxK x) s = .next t ∧ OnlyRegs s t ∧ (t.reg x).toNat = (choose s.keys).val ∧
        ∀ r, r ≠ x → t.reg r = s.reg r)

/-! ### Frames and rules of the whole machine -/

/-- No instruction changes a register it does not write by 10_state.md R10 and R23: in particular VF only changes in
ADD, SUB, SHR, SUBN, SHL, DRW and where it is named as a destination. -/
def Obligations.RegistersChangeOnlyWhereWritten : Prop :=
  ∀ (i : Instr) (s t : State) (r : Reg), exec i s = .next t → mayWriteReg i r = false → t.reg r = s.reg r

/-- I changes only in LD I, ADD I and LD F (10_state.md R11), DT only in LD DT (R13), and no instruction changes KEYS
(R16). The model's draw counter changes only in RND (log 3). -/
def Obligations.IndexTimerAndKeysFrame : Prop :=
  ∀ (i : Instr) (s t : State), exec i s = .next t →
    (mayWriteI i = false → t.i = s.i) ∧ ((∀ x, i ≠ .ldDtVx x) → t.dt = s.dt) ∧ t.keys = s.keys ∧
    ((∀ x kk, i ≠ .rnd x kk) → t.draws = s.draws)

/-- Only CALL and RET touch the stack (10_state.md R14): RET keeps every entry, CALL every entry but the one at SP. -/
def Obligations.StackChangesOnlyInCallAndReturn : Prop :=
  ∀ (i : Instr) (s t : State), exec i s = .next t →
    ((i ≠ .ret ∧ ∀ nnn, i ≠ .call nnn) → t.sp = s.sp) ∧ ((∀ nnn, i ≠ .call nnn) → t.stack = s.stack) ∧
    ∀ k : Fin 16, k.val ≠ s.sp.val → t.stack[k.val] = s.stack[k.val]

/-- Only CLS and DRW write the display (10_state.md R15), and FAULT changes only where R93 says a fault is raised. -/
def Obligations.DisplayAndFaultFrame : Prop :=
  ∀ (i : Instr) (s t : State), exec i s = .next t →
    ((i ≠ .cls ∧ ∀ x y n, i ≠ .drw x y n) → t.disp = s.disp) ∧ (faultOf i s = none → t.fault = s.fault)

/-- Memory changes only at the bytes LD B and LD [I],Vx store, which start at I (20_memory.md R32, R34): an
instruction that stores nothing leaves memory as it is, and every byte outside the stored ones reads as before. -/
def Obligations.MemoryChangesOnlyAtStoredBytes : Prop :=
  ∀ (i : Instr) (s t : State), exec i s = .next t →
    (storedBytes i = 0 → t.mem = s.mem) ∧
    (s.mem.wf = true → ∀ a, a < s.i.toNat ∨ s.i.toNat + storedBytes i ≤ a → t.mem.read a = s.mem.read a)

/-! ### Invariants -/

/-- The invariant holds right after reset. Its clause on memory is the model's own canonical form (DESIGN CHOICE,
log 5). -/
def Obligations.InvariantHoldsAtReset : Prop := State.reset.Inv

/-- Every step keeps the invariant: canonical memory (the model's own form of MEM, DESIGN CHOICE, log 5), bounded PC and
return addresses (10_state.md R12), a precise FAULT (60_exceptions.md R93, R96). -/
def Obligations.EveryStepKeepsTheInvariant : Prop :=
  ∀ s t : State, s.Inv → step s = .next t → t.Inv

/-- The PC bound of 10_state.md R12, alone: from any state with a bounded PC and bounded pushed addresses, a step gives
such a state, so no PC above 0x10FE is ever produced and PC never wraps. -/
def Obligations.EveryStepKeepsPcBounded : Prop :=
  ∀ s t : State, s.pcBounded → step s = .next t → t.pcBounded

/-- Every host call that is made (70_reset_and_hazards.md R113), in any order, keeps PC and the return addresses bounded
(10_state.md R12) and memory in the model's own canonical form (DESIGN CHOICE, log 5: no rule of the spec). -/
def Obligations.HostCallsKeepMemoryAndPc : Prop :=
  ∀ (c : HostCall) (s t : State), s.mem.wf = true → s.pcBounded → hostCall c s = .next t →
    t.mem.wf = true ∧ t.pcBounded

/-- A normal end is stable (70_reset_and_hazards.md R116): the self-jump changes nothing, and only the timer ages, so
every later step stays at the end. -/
def Obligations.NormalEndOnlyAgesTheTimer : Prop :=
  ∀ s : State, s.normalEnd →
    ∃ t, step s = .next t ∧ t = { s with dt := if s.dt = 0 then 0 else s.dt - 1 } ∧ t.normalEnd

/-! ### Reset and the host's calls -/

/-- R22 and R108: what reset leaves, from any state, halted or not. KEYS is not changed. The glyph bytes are those of
20_memory.md R28. -/
def Obligations.ResetLeavesTheListedValues : Prop :=
  ∀ s : State, ∃ t, hostCall .reset s = .next t ∧
    (∀ r, t.reg r = 0) ∧ t.i = 0 ∧ t.pc = 0 ∧ t.dt = 0 ∧ t.sp.val = 0 ∧ (∀ k : Fin 16, t.stack[k.val] = 0) ∧
    (∀ px py, t.disp.getPixel px py = false) ∧ t.keys = s.keys ∧ t.fault = none ∧
    (∀ a, 80 ≤ a → a < 4096 → t.mem.read a = 0) ∧
    t.mem.readBytes 0 40 =
      [0xF0, 0x90, 0x90, 0x90, 0xF0, 0x20, 0x60, 0x20, 0x20, 0x70, 0xF0, 0x10, 0xF0, 0x80, 0xF0, 0xF0, 0x10, 0xF0,
       0x10, 0xF0, 0x90, 0x90, 0xF0, 0x10, 0x10, 0xF0, 0x80, 0xF0, 0x10, 0xF0, 0xF0, 0x80, 0xF0, 0x90, 0xF0, 0xF0,
       0x10, 0x20, 0x40, 0x40] ∧
    t.mem.readBytes 40 40 =
      [0xF0, 0x90, 0xF0, 0x90, 0xF0, 0xF0, 0x90, 0xF0, 0x10, 0xF0, 0xF0, 0x90, 0xF0, 0x90, 0x90, 0xE0, 0x90, 0xE0,
       0x90, 0xE0, 0xF0, 0x80, 0x80, 0x80, 0xF0, 0xE0, 0x90, 0x90, 0x90, 0xE0, 0xF0, 0x80, 0xF0, 0x80, 0xF0, 0xF0,
       0x80, 0xF0, 0x80, 0x80]

/-- R109: the power-on state is what reset leaves when no key is pressed and, in the model's own counter, nothing has
been drawn (log 3). -/
def Obligations.PowerOnIsResetWithNoKeys : Prop :=
  (∀ k : Fin 16, State.reset.keys[k.val] = false) ∧
  ∀ s : State, (∀ k : Fin 16, s.keys[k.val] = false) → s.draws = 0 → hostCall .reset s = .next State.reset

/-- R112: load_program writes the image at 0x200 and sets PC to 0x200; no other byte and no other state changes, and a
longer image has no move. -/
def Obligations.LoadProgramWritesTheImage : Prop :=
  ∀ (bytes : List Byte) (s : State),
    (bytes.length ≤ 3584 → s.mem.wf = true →
      ∃ t, hostCall (.loadProgram bytes) s = .next t ∧ t = { s with mem := t.mem, pc := 0x200 } ∧
        (∀ (k : Nat) (b : Byte), bytes[k]? = some b → t.mem.read (0x200 + k) = b) ∧
        ∀ a, a < 0x200 ∨ 0x200 + bytes.length ≤ a → t.mem.read a = s.mem.read a) ∧
    (bytes.length > 3584 → ∀ t, hostCall (.loadProgram bytes) s ≠ .next t)

/-- R110: set_keys replaces KEYS whole and changes nothing else; a code above 0xF has no move. -/
def Obligations.SetKeysReplacesTheSet : Prop :=
  ∀ (codes : List Nat) (s : State),
    ((∀ k ∈ codes, k < 16) →
      ∃ t, hostCall (.setKeys codes) s = .next t ∧ t = { s with keys := t.keys } ∧
        ∀ k : Fin 16, t.keys[k.val] = true ↔ k.val ∈ codes) ∧
    ((∃ k ∈ codes, k ≥ 16) → ∀ t, hostCall (.setKeys codes) s ≠ .next t)

/-- R111: get_display_buffer gives the 64 x 32 cells, cell (px, py) at `py * 64 + px`, and changes nothing. -/
def Obligations.DisplayBufferIsRowMajor : Prop :=
  ∀ s : State, hostCall .getDisplayBuffer s = .next s ∧ (displayBuffer s).length = 2048 ∧
    ∀ (px : Fin 64) (py : Fin 32), (displayBuffer s)[py.val * 64 + px.val]? = some (s.disp.getPixel px py)
end

