-- ==== Sys2Proof/Laws/Decode.lean ====
section
/-! SUPPORT. The laws of the opcode table (30_encoding.md R43, R48): no two rows share a word, so the row that
recognises a word is the one `decodeWith` finds. -/

namespace Sys2Proof

/-- Two rows share no word: they differ in a bit both of them fix. -/
def rowsApart (r r' : OpRow) : Bool := (r.pattern ^^^ r'.pattern) &&& (r.mask &&& r'.mask) != 0

/-- Rows that are apart recognise no word in common. -/
theorem not_both_match {r r' : OpRow} (h : rowsApart r r' = true) {op : Word} (h1 : rowMatches r op = true) :
    rowMatches r' op = false := by
  by_contra h2
  simp only [rowMatches, Bool.not_eq_false, beq_iff_eq] at h1 h2
  simp only [rowsApart, bne_iff_ne, ← h1, ← h2] at h
  apply h
  ext k hk
  simp only [BitVec.getElem_and, BitVec.getElem_xor]
  cases op[k] <;> cases r.mask[k] <;> cases r'.mask[k] <;> simp

/-- Any two of the 34 rows are apart, under either `SKIP_REG_STRICT`. -/
theorem opRows_pairwise (strict : Bool) : (opRows strict).Pairwise (fun r r' => rowsApart r r' = true) := by
  cases strict <;> decide

/-- The first match in a list of rows that are apart is the match. -/
theorem find_row {rows : List OpRow} (hp : rows.Pairwise (fun r r' => rowsApart r r' = true)) {r : OpRow}
    (hr : r ∈ rows) {op : Word} (hm : rowMatches r op = true) : rows.find? (fun r => rowMatches r op) = some r := by
  induction rows with
  | nil => cases hr
  | cons q rows ih =>
    obtain ⟨hq, hp⟩ := List.pairwise_cons.mp hp
    rcases List.mem_cons.mp hr with rfl | hr
    · rw [List.find?_cons, hm]
    · have hn : rowMatches q op = false := by
        by_contra h
        have := not_both_match (hq r hr) (Bool.not_eq_false _ ▸ h)
        simp_all
      rw [List.find?_cons, hn]
      exact ih hp hr

/-- A word that a row of the table recognises decodes to that row's instruction (R48). -/
theorem decodeWith_of_row {strict : Bool} {r : OpRow} (hr : r ∈ opRows strict) {op : Word}
    (hm : rowMatches r op = true) : decodeWith strict op = .instr (r.build op) := by
  rw [decodeWith, find_row (opRows_pairwise strict) hr hm]

/-- Everything decoding can answer: the instruction of a row that recognises the word, or the no-op where none does. -/
theorem decodeWith_cases (strict : Bool) (op : Word) :
    (∃ r ∈ opRows strict, rowMatches r op = true ∧ decodeWith strict op = .instr (r.build op)) ∨
    (∀ r ∈ opRows strict, rowMatches r op = false) ∧ decodeWith strict op = .nop := by
  unfold decodeWith
  cases h : (opRows strict).find? (fun r => rowMatches r op) with
  | some r => exact .inl ⟨r, List.mem_of_find?_eq_some h, by simpa using List.find?_some h, rfl⟩
  | none =>
    refine .inr ⟨fun r hr => ?_, rfl⟩
    simpa using List.find?_eq_none.mp h r hr

/-- The two bytes of a word, in memory order, are the word (20_memory.md R30). -/
theorem wordOfBytes_bytes (op : Word) : wordOfBytes (hiByte op) (loByte op) = op := by
  simp only [wordOfBytes, hiByte, loByte]
  ext k hk
  simp only [BitVec.getElem_append, BitVec.getElem_extractLsb']
  split
  · simp [BitVec.getLsbD_eq_getElem hk]
  · have : 8 + (k - 8) = k := by omega
    simp [this, BitVec.getLsbD_eq_getElem hk]

/-! ### The fields of a word laid out in a format (30_encoding.md R40, R42) -/

/-- The bits of format `A`. -/
theorem formatA_bit (h : Nibble) (nnn : Addr12) (k : Nat) :
    (formatA h nnn).getLsbD k = if k < 12 then nnn.getLsbD k else h.getLsbD (k - 12) :=
  BitVec.getLsbD_append

/-- The bits of format `XK`. -/
theorem formatXK_bit (h : Nibble) (x : Reg) (kk : Byte) (k : Nat) :
    (formatXK h x kk).getLsbD k =
      if k < 8 then kk.getLsbD k else if k - 8 < 4 then x.getLsbD (k - 8) else h.getLsbD (k - 8 - 4) := by
  have e : (formatXK h x kk).getLsbD k = (h ++ x ++ kk : BitVec (4 + 4 + 8)).getLsbD k := rfl
  rw [e, BitVec.getLsbD_append, BitVec.getLsbD_append]

/-- The bits of format `XYN`. -/
theorem formatXYN_bit (h : Nibble) (x y : Reg) (n : Nibble) (k : Nat) :
    (formatXYN h x y n).getLsbD k =
      if k < 4 then n.getLsbD k else if k - 4 < 4 then y.getLsbD (k - 4)
      else if k - 4 - 4 < 4 then x.getLsbD (k - 4 - 4) else h.getLsbD (k - 4 - 4 - 4) := by
  have e : (formatXYN h x y n).getLsbD k = (h ++ x ++ y ++ n : BitVec (4 + 4 + 4 + 4)).getLsbD k := rfl
  rw [e, BitVec.getLsbD_append, BitVec.getLsbD_append, BitVec.getLsbD_append]

@[simp] theorem fieldNNN_formatA (h : Nibble) (nnn : Addr12) : fieldNNN (formatA h nnn) = nnn := by
  apply BitVec.eq_of_getLsbD_eq
  intro k hk
  rw [fieldNNN, BitVec.getLsbD_extractLsb', formatA_bit]
  simp [hk]

@[simp] theorem fieldX_formatXK (h : Nibble) (x : Reg) (kk : Byte) : fieldX (formatXK h x kk) = x := by
  apply BitVec.eq_of_getLsbD_eq
  intro k hk
  rw [fieldX, BitVec.getLsbD_extractLsb', formatXK_bit]
  simp [hk]

@[simp] theorem fieldKK_formatXK (h : Nibble) (x : Reg) (kk : Byte) : fieldKK (formatXK h x kk) = kk := by
  apply BitVec.eq_of_getLsbD_eq
  intro k hk
  rw [fieldKK, BitVec.getLsbD_extractLsb', formatXK_bit]
  simp [hk]

@[simp] theorem fieldX_formatXYN (h : Nibble) (x y : Reg) (n : Nibble) : fieldX (formatXYN h x y n) = x := by
  apply BitVec.eq_of_getLsbD_eq
  intro k hk
  rw [fieldX, BitVec.getLsbD_extractLsb', formatXYN_bit]
  have h1 : ¬ 8 + k < 4 := by omega
  have h2 : ¬ 8 + k - 4 < 4 := by omega
  have h3 : 8 + k - 4 - 4 = k := by omega
  simp [h1, h2, h3, hk]

@[simp] theorem fieldY_formatXYN (h : Nibble) (x y : Reg) (n : Nibble) : fieldY (formatXYN h x y n) = y := by
  apply BitVec.eq_of_getLsbD_eq
  intro k hk
  rw [fieldY, BitVec.getLsbD_extractLsb', formatXYN_bit]
  simp [hk]

@[simp] theorem fieldN_formatXYN (h : Nibble) (x y : Reg) (n : Nibble) : fieldN (formatXYN h x y n) = n := by
  apply BitVec.eq_of_getLsbD_eq
  intro k hk
  rw [fieldN, BitVec.getLsbD_extractLsb', formatXYN_bit]
  simp [hk]

/-- A word laid out from its own class nibble and address is the word. -/
theorem formatA_fields (op : Word) : formatA (op.extractLsb' 12 4) (fieldNNN op) = op := by
  apply BitVec.eq_of_getLsbD_eq
  intro k hk
  rw [formatA_bit, fieldNNN, BitVec.getLsbD_extractLsb', BitVec.getLsbD_extractLsb']
  by_cases h1 : k < 12
  · simp [h1]
  · have h2 : k - 12 < 4 := by omega
    have h3 : 12 + (k - 12) = k := by omega
    simp [h1, h2, h3]

/-- A word laid out from its own class nibble, `x` and `kk` is the word. -/
theorem formatXK_fields (op : Word) : formatXK (op.extractLsb' 12 4) (fieldX op) (fieldKK op) = op := by
  apply BitVec.eq_of_getLsbD_eq
  intro k hk
  rw [formatXK_bit, fieldX, fieldKK]
  simp only [BitVec.getLsbD_extractLsb']
  by_cases h1 : k < 8
  · simp [h1]
  · by_cases h2 : k - 8 < 4
    · have h3 : 8 + (k - 8) = k := by omega
      simp [h1, h2, h3]
    · have h3 : k - 8 - 4 < 4 := by omega
      have h4 : 12 + (k - 8 - 4) = k := by omega
      simp [h1, h2, h3, h4]

/-- A word laid out from its own class nibble, `x`, `y` and `n` is the word. -/
theorem formatXYN_fields (op : Word) :
    formatXYN (op.extractLsb' 12 4) (fieldX op) (fieldY op) (fieldN op) = op := by
  apply BitVec.eq_of_getLsbD_eq
  intro k hk
  rw [formatXYN_bit, fieldX, fieldY, fieldN]
  simp only [BitVec.getLsbD_extractLsb']
  by_cases h1 : k < 4
  · simp [h1]
  · by_cases h2 : k - 4 < 4
    · have h3 : 4 + (k - 4) = k := by omega
      simp [h1, h2, h3]
    · by_cases h5 : k - 4 - 4 < 4
      · have h3 : 8 + (k - 4 - 4) = k := by omega
        simp [h1, h2, h3, h5]
      · have h3 : k - 4 - 4 - 4 < 4 := by omega
        have h4 : 12 + (k - 4 - 4 - 4) = k := by omega
        simp [h1, h2, h3, h4, h5]

end Sys2Proof
end

