-- ==== Sys2Proof/Laws/Memory.lean ====
section
/-! SUPPORT. The laws of memory: every operation keeps the canonical form, and a read after a write. -/

namespace Sys2Proof.Machine

/-- The canonical form from a higher address on is one from a lower address on. -/
theorem wfFrom_mono {m : Memory} {lo lo' : Nat} (h : lo' ≤ lo) (hm : Memory.wfFrom lo m = true) :
    Memory.wfFrom lo' m = true := by
  cases m with
  | nil => rfl
  | cons c m =>
    simp only [Memory.wfFrom, Bool.and_eq_true, decide_eq_true_eq] at hm ⊢
    exact ⟨⟨⟨Nat.le_trans h hm.1.1.1, hm.1.1.2⟩, hm.1.2⟩, hm.2⟩

/-- An address below every listed one is unlisted. -/
theorem read_of_wfFrom {m : Memory} {lo a : Nat} (hm : Memory.wfFrom lo m = true) (h : a < lo) :
    m.read a = resetByte a := by
  induction m generalizing lo with
  | nil => rfl
  | cons c m ih =>
    simp only [Memory.wfFrom, Bool.and_eq_true, decide_eq_true_eq] at hm
    rw [Memory.read, if_neg (by omega), ih hm.2 (by omega)]

/-- A write of a byte below 4096 keeps the canonical form. -/
theorem wfFrom_write {m : Memory} {lo a : Nat} {v : Byte} (hm : Memory.wfFrom lo m = true) (hlo : lo ≤ a)
    (ha : a < 4096) : Memory.wfFrom lo (m.write a v) = true := by
  induction m generalizing lo with
  | nil =>
    rw [Memory.write]
    split <;> simp_all [Memory.wfFrom]
  | cons c m ih =>
    obtain ⟨b, w⟩ := c
    have hm' := hm
    simp only [Memory.wfFrom, Bool.and_eq_true, decide_eq_true_eq] at hm'
    obtain ⟨⟨⟨h1, h2⟩, h3⟩, h4⟩ := hm'
    rw [Memory.write]
    split
    · split
      · exact hm
      · simp_all [Memory.wfFrom]
    · split
      · split
        · exact wfFrom_mono (by omega) h4
        · simp_all [Memory.wfFrom]
      · simp only [Memory.wfFrom, Bool.and_eq_true, decide_eq_true_eq]
        exact ⟨⟨⟨h1, h2⟩, h3⟩, ih h4 (by omega)⟩

/-- A read after a write, from an address on. -/
theorem read_write_from {m : Memory} {lo a : Nat} {v : Byte} (hm : Memory.wfFrom lo m = true) (a' : Nat) :
    (m.write a v).read a' = if a' = a then v else m.read a' := by
  induction m generalizing lo with
  | nil =>
    rw [Memory.write]
    split <;> simp_all [Memory.read]
  | cons c m ih =>
    obtain ⟨b, w⟩ := c
    simp only [Memory.wfFrom, Bool.and_eq_true, decide_eq_true_eq] at hm
    obtain ⟨⟨⟨h1, h2⟩, h3⟩, h4⟩ := hm
    have key : a ≤ b → Memory.read m a = resetByte a := fun h => read_of_wfFrom h4 (Nat.lt_succ_of_le h)
    rw [Memory.write]
    split
    · split
      · by_cases e : a' = a
        · subst e; rw [if_pos rfl, Memory.read, if_neg (by omega), key (by omega)]; simp_all
        · rw [if_neg e]
      · simp only [Memory.read]
    · split
      · split
        · by_cases e : a' = a
          · subst e; rw [if_pos rfl, key (by omega)]; simp_all
          · rw [if_neg e, Memory.read, if_neg (by omega)]
        · simp only [Memory.read]; split <;> simp_all
      · simp only [Memory.read, ih h4]
        split
        · rw [if_neg (by omega)]
        · rfl

/-- A write below 4096 keeps the canonical form. -/
theorem wf_write {m : Memory} {a : Nat} {v : Byte} (hm : m.wf = true) (ha : a < 4096) : (m.write a v).wf = true :=
  wfFrom_write hm (Nat.zero_le _) ha

/-- A read after a write (20_memory.md R25, R34): the written byte reads back, every other byte is as it was. -/
theorem read_write {m : Memory} {a : Nat} {v : Byte} (hm : m.wf = true) (a' : Nat) :
    (m.write a v).read a' = if a' = a then v else m.read a' := read_write_from hm a'

/-- Writing several bytes within memory keeps the canonical form. -/
theorem wf_writeBytes {m : Memory} {a : Nat} {vs : List Byte} (hm : m.wf = true) (ha : a + vs.length ≤ 4096) :
    (m.writeBytes a vs).wf = true := by
  induction vs generalizing m a with
  | nil => exact hm
  | cons v vs ih =>
    simp only [List.length_cons] at ha
    exact ih (wf_write hm (by omega)) (by omega)

/-- A read after several bytes are written within memory. -/
theorem read_writeBytes {m : Memory} {a : Nat} {vs : List Byte} (hm : m.wf = true) (ha : a + vs.length ≤ 4096)
    (a' : Nat) : (m.writeBytes a vs).read a' = if h : a ≤ a' ∧ a' < a + vs.length then vs[a' - a] else m.read a' := by
  induction vs generalizing m a with
  | nil => rw [Memory.writeBytes, dif_neg (by simp)]
  | cons v vs ih =>
    simp only [List.length_cons] at ha
    rw [Memory.writeBytes, ih (wf_write hm (by omega)) (by omega), read_write hm]
    by_cases h1 : a' = a
    · subst h1; simp
    · by_cases h2 : a + 1 ≤ a' ∧ a' < a + 1 + vs.length
      · have h3 : a ≤ a' ∧ a' < a + (v :: vs).length := by simp only [List.length_cons]; omega
        rw [dif_pos h2, dif_pos h3, List.getElem_cons, dif_neg (by omega)]
        congr 1
      · have h3 : ¬(a ≤ a' ∧ a' < a + (v :: vs).length) := by simp only [List.length_cons]; omega
        rw [dif_neg h2, dif_neg h3, if_neg h1]

/-- The bytes read are as many as asked for. -/
@[simp] theorem readBytes_length (m : Memory) (a n : Nat) : (m.readBytes a n).length = n := by
  induction n generalizing a with
  | zero => rfl
  | succ n ih => simp [Memory.readBytes, ih]

/-- The j-th byte read. -/
theorem readBytes_getElem (m : Memory) (a n j : Nat) (h : j < (m.readBytes a n).length) :
    (m.readBytes a n)[j] = m.read (a + j) := by
  induction n generalizing a j with
  | zero => simp [Memory.readBytes] at h
  | succ n ih =>
    cases j with
    | zero => rfl
    | succ j =>
      simp only [Memory.readBytes, List.getElem_cons_succ]
      rw [ih]
      congr 1; omega

/-- When an access is within memory (60_exceptions.md R94). -/
theorem outsideAt_none (base n : Nat) : outsideAt base n = none ↔ n = 0 ∨ base + n ≤ 4096 := by
  unfold outsideAt; split
  · simp_all
  · split <;> simp_all

/-- What an access outside memory records: its lowest address that is 4096 or more. -/
theorem outsideAt_some (base n a : Nat) :
    outsideAt base n = some a ↔ n ≠ 0 ∧ 4096 < base + n ∧ a = max base 4096 := by
  unfold outsideAt; split
  · simp_all
  · split
    · simp_all
    · simp_all; exact eq_comm

end Sys2Proof.Machine
end

