-- ==== Sys2Proof/Laws/State.lean ====
section
/-! SUPPORT. What each update of the state leaves in each field: one lemma per field and update, so that no proof
unfolds a record update. -/

namespace Sys2Proof.Machine

variable (s : State) (r : Reg) (b : Byte) (a p : Addr) (c : Cause) (n : Nat) (q : Bool)

/-! ### setReg -/

@[simp] theorem setReg_i : (s.setReg r b).i = s.i := rfl
@[simp] theorem setReg_pc : (s.setReg r b).pc = s.pc := rfl
@[simp] theorem setReg_dt : (s.setReg r b).dt = s.dt := rfl
@[simp] theorem setReg_sp : (s.setReg r b).sp = s.sp := rfl
@[simp] theorem setReg_stack : (s.setReg r b).stack = s.stack := rfl
@[simp] theorem setReg_mem : (s.setReg r b).mem = s.mem := rfl
@[simp] theorem setReg_disp : (s.setReg r b).disp = s.disp := rfl
@[simp] theorem setReg_keys : (s.setReg r b).keys = s.keys := rfl
@[simp] theorem setReg_fault : (s.setReg r b).fault = s.fault := rfl
@[simp] theorem setReg_draws : (s.setReg r b).draws = s.draws := rfl

/-- Reading a register after writing one. -/
@[simp] theorem reg_setReg (r' : Reg) : (s.setReg r b).reg r' = if r' = r then b else s.reg r' := by
  simp only [State.reg, State.setReg, Vector.getElem_set, BitVec.toNat_inj, eq_comm]

/-- Two register files are equal when every register reads alike. -/
theorem v_ext {s t : State} (h : ∀ r, s.reg r = t.reg r) : s.v = t.v := by
  apply Vector.ext
  intro k hk
  have := h ⟨⟨k, hk⟩⟩
  simpa [State.reg] using this

/-! ### setRegs -/

/-- Writing a list of registers touches nothing else. -/
theorem setRegs_frame (bs : List Byte) (k : Nat) : s.setRegs k bs = { s with v := (s.setRegs k bs).v } := by
  induction bs generalizing s k with
  | nil => rfl
  | cons b bs ih => rw [State.setRegs, ih]; rfl

/-- What each register holds after a list of them is written, within the 16 registers. -/
theorem reg_setRegs (bs : List Byte) (k : Nat) (hk : k + bs.length ≤ 16) :
    (s.setRegs k bs).reg r = if h : k ≤ r.toNat ∧ r.toNat < k + bs.length then bs[r.toNat - k] else s.reg r := by
  induction bs generalizing s k with
  | nil => simp [State.setRegs]
  | cons b bs ih =>
    simp only [List.length_cons] at hk
    rw [State.setRegs, ih _ _ (by omega)]
    have hr : r = BitVec.ofNat 4 k ↔ r.toNat = k := by
      rw [← BitVec.toNat_inj, BitVec.toNat_ofNat, Nat.mod_eq_of_lt (by omega)]
    by_cases h1 : r.toNat = k
    · simp [h1, hr]
    · by_cases h2 : k + 1 ≤ r.toNat ∧ r.toNat < k + 1 + bs.length
      · have h3 : k ≤ r.toNat ∧ r.toNat < k + (bs.length + 1) := by omega
        rw [dif_pos h2, dif_pos (by simpa using h3), List.getElem_cons, dif_neg (by omega)]
        congr 1
      · have h3 : ¬(k ≤ r.toNat ∧ r.toNat < k + (bs.length + 1)) := by omega
        rw [dif_neg h2, dif_neg (by simpa using h3), reg_setReg, if_neg (by rwa [hr])]

/-- Registers in order, as a list. -/
theorem regsFrom_length (k : Nat) : (s.regsFrom k n).length = n := by
  induction n generalizing k with
  | zero => rfl
  | succ n ih => simp [State.regsFrom, ih]

/-- The j-th register of the list. -/
theorem regsFrom_getElem (k j : Nat) (h : j < (s.regsFrom k n).length) :
    (s.regsFrom k n)[j] = s.reg (BitVec.ofNat 4 (k + j)) := by
  induction n generalizing k j with
  | zero => simp [State.regsFrom] at h
  | succ n ih =>
    cases j with
    | zero => rfl
    | succ j =>
      simp only [State.regsFrom, List.getElem_cons_succ]
      rw [ih]
      congr 2; omega

/-! ### jump, rewind, skipIf -/

@[simp] theorem jump_v : (s.jump a).v = s.v := rfl
@[simp] theorem jump_i : (s.jump a).i = s.i := rfl
@[simp] theorem jump_pc : (s.jump a).pc = a := rfl
@[simp] theorem jump_dt : (s.jump a).dt = s.dt := rfl
@[simp] theorem jump_sp : (s.jump a).sp = s.sp := rfl
@[simp] theorem jump_stack : (s.jump a).stack = s.stack := rfl
@[simp] theorem jump_mem : (s.jump a).mem = s.mem := rfl
@[simp] theorem jump_disp : (s.jump a).disp = s.disp := rfl
@[simp] theorem jump_keys : (s.jump a).keys = s.keys := rfl
@[simp] theorem jump_fault : (s.jump a).fault = s.fault := rfl
@[simp] theorem jump_draws : (s.jump a).draws = s.draws := rfl
@[simp] theorem jump_reg : (s.jump a).reg r = s.reg r := rfl

@[simp] theorem rewind_v : s.rewind.v = s.v := rfl
@[simp] theorem rewind_i : s.rewind.i = s.i := rfl
@[simp] theorem rewind_pc : s.rewind.pc = s.pc - 2 := rfl
@[simp] theorem rewind_dt : s.rewind.dt = s.dt := rfl
@[simp] theorem rewind_sp : s.rewind.sp = s.sp := rfl
@[simp] theorem rewind_stack : s.rewind.stack = s.stack := rfl
@[simp] theorem rewind_mem : s.rewind.mem = s.mem := rfl
@[simp] theorem rewind_disp : s.rewind.disp = s.disp := rfl
@[simp] theorem rewind_keys : s.rewind.keys = s.keys := rfl
@[simp] theorem rewind_fault : s.rewind.fault = s.fault := rfl
@[simp] theorem rewind_draws : s.rewind.draws = s.draws := rfl
@[simp] theorem rewind_reg : s.rewind.reg r = s.reg r := rfl

/-- A skip as one record update. -/
theorem skipIf_eq : s.skipIf q = { s with pc := if q then s.pc + 2 else s.pc } := by cases q <;> rfl

@[simp] theorem skipIf_v : (s.skipIf q).v = s.v := by rw [skipIf_eq]
@[simp] theorem skipIf_i : (s.skipIf q).i = s.i := by rw [skipIf_eq]
@[simp] theorem skipIf_pc : (s.skipIf q).pc = if q then s.pc + 2 else s.pc := by rw [skipIf_eq]
@[simp] theorem skipIf_dt : (s.skipIf q).dt = s.dt := by rw [skipIf_eq]
@[simp] theorem skipIf_sp : (s.skipIf q).sp = s.sp := by rw [skipIf_eq]
@[simp] theorem skipIf_stack : (s.skipIf q).stack = s.stack := by rw [skipIf_eq]
@[simp] theorem skipIf_mem : (s.skipIf q).mem = s.mem := by rw [skipIf_eq]
@[simp] theorem skipIf_disp : (s.skipIf q).disp = s.disp := by rw [skipIf_eq]
@[simp] theorem skipIf_keys : (s.skipIf q).keys = s.keys := by rw [skipIf_eq]
@[simp] theorem skipIf_fault : (s.skipIf q).fault = s.fault := by rw [skipIf_eq]
@[simp] theorem skipIf_draws : (s.skipIf q).draws = s.draws := by rw [skipIf_eq]
@[simp] theorem skipIf_reg : (s.skipIf q).reg r = s.reg r := by rw [skipIf_eq]; rfl

/-! ### enterFault and raise (60_exceptions.md R96) -/

@[simp] theorem enterFault_v : (s.enterFault p c n).v = s.v := rfl
@[simp] theorem enterFault_i : (s.enterFault p c n).i = s.i := rfl
@[simp] theorem enterFault_pc : (s.enterFault p c n).pc = p := rfl
@[simp] theorem enterFault_dt : (s.enterFault p c n).dt = s.dt := rfl
@[simp] theorem enterFault_sp : (s.enterFault p c n).sp = s.sp := rfl
@[simp] theorem enterFault_stack : (s.enterFault p c n).stack = s.stack := rfl
@[simp] theorem enterFault_mem : (s.enterFault p c n).mem = s.mem := rfl
@[simp] theorem enterFault_disp : (s.enterFault p c n).disp = s.disp := rfl
@[simp] theorem enterFault_keys : (s.enterFault p c n).keys = s.keys := rfl
@[simp] theorem enterFault_fault : (s.enterFault p c n).fault = some ⟨c, p, n⟩ := rfl
@[simp] theorem enterFault_draws : (s.enterFault p c n).draws = s.draws := rfl
@[simp] theorem enterFault_reg : (s.enterFault p c n).reg r = s.reg r := rfl

@[simp] theorem raise_v : (s.raise c n).v = s.v := rfl
@[simp] theorem raise_i : (s.raise c n).i = s.i := rfl
@[simp] theorem raise_pc : (s.raise c n).pc = s.pc - 2 := rfl
@[simp] theorem raise_dt : (s.raise c n).dt = s.dt := rfl
@[simp] theorem raise_sp : (s.raise c n).sp = s.sp := rfl
@[simp] theorem raise_stack : (s.raise c n).stack = s.stack := rfl
@[simp] theorem raise_mem : (s.raise c n).mem = s.mem := rfl
@[simp] theorem raise_disp : (s.raise c n).disp = s.disp := rfl
@[simp] theorem raise_keys : (s.raise c n).keys = s.keys := rfl
@[simp] theorem raise_fault : (s.raise c n).fault = some ⟨c, s.pc - 2, n⟩ := rfl
@[simp] theorem raise_draws : (s.raise c n).draws = s.draws := rfl
@[simp] theorem raise_reg : (s.raise c n).reg r = s.reg r := rfl

/-! ### countDraw and hostReset -/

@[simp] theorem countDraw_v : s.countDraw.v = s.v := rfl
@[simp] theorem countDraw_i : s.countDraw.i = s.i := rfl
@[simp] theorem countDraw_pc : s.countDraw.pc = s.pc := rfl
@[simp] theorem countDraw_dt : s.countDraw.dt = s.dt := rfl
@[simp] theorem countDraw_sp : s.countDraw.sp = s.sp := rfl
@[simp] theorem countDraw_stack : s.countDraw.stack = s.stack := rfl
@[simp] theorem countDraw_mem : s.countDraw.mem = s.mem := rfl
@[simp] theorem countDraw_disp : s.countDraw.disp = s.disp := rfl
@[simp] theorem countDraw_keys : s.countDraw.keys = s.keys := rfl
@[simp] theorem countDraw_fault : s.countDraw.fault = s.fault := rfl
@[simp] theorem countDraw_draws : s.countDraw.draws = s.draws + 1 := rfl
@[simp] theorem countDraw_reg : s.countDraw.reg r = s.reg r := rfl

@[simp] theorem hostReset_keys : s.hostReset.keys = s.keys := rfl
@[simp] theorem hostReset_draws : s.hostReset.draws = s.draws := rfl
@[simp] theorem hostReset_mem : s.hostReset.mem = [] := rfl
@[simp] theorem hostReset_fault : s.hostReset.fault = none := rfl
@[simp] theorem hostReset_pc : s.hostReset.pc = 0 := rfl

end Sys2Proof.Machine
end

