-- ==== Sys2Proof/Laws/Ops.lean ====
section
/-! SUPPORT. One lemma for each shared operation, saying everything it can do. -/

namespace Sys2Proof.Machine

/-! ### Call stack -/

/-- A push fails exactly when all 16 entries are occupied. -/
theorem push_none (s : State) (a : Addr) : s.push a = none ↔ s.sp.val = 16 := by
  unfold State.push; split <;> simp_all

/-- What a push answers: the entry at SP written, SP one higher. -/
theorem push_some {s t : State} {a : Addr} (h : s.push a = some t) :
    ∃ k : Fin 16, s.sp = k.castSucc ∧ t = { s with stack := s.stack.set k.val a k.isLt, sp := k.succ } := by
  unfold State.push at h
  split at h
  · cases h
  · cases h
    exact ⟨⟨s.sp.val, by omega⟩, rfl, rfl⟩

/-- A push onto a stack of `k` entries. -/
theorem push_of_sp {s : State} {k : Fin 16} (a : Addr) (h : s.sp = k.castSucc) :
    s.push a = some { s with stack := s.stack.set k.val a k.isLt, sp := k.succ } := by
  unfold State.push
  have hv : s.sp.val = k.val := by rw [h]; rfl
  rw [dif_neg (by omega)]
  simp only [hv, Option.some.injEq]
  rfl

/-- A pop fails exactly when no entry is occupied. -/
theorem pop_none (s : State) : s.pop = none ↔ s.sp.val = 0 := by
  unfold State.pop; split <;> simp_all

/-- What a pop answers: the entry below SP, and SP one lower; the entry itself is kept. -/
theorem pop_some {s t : State} {a : Addr} (h : s.pop = some (a, t)) :
    ∃ k : Fin 16, s.sp = k.succ ∧ a = s.stack[k.val] ∧ t = { s with sp := k.castSucc } := by
  unfold State.pop at h
  split at h
  · cases h
  · cases h
    exact ⟨⟨s.sp.val - 1, by omega⟩, Fin.ext (by simp; omega), rfl, rfl⟩

/-- A pop from a stack of `k + 1` entries. -/
theorem pop_of_sp {s : State} {k : Fin 16} (h : s.sp = k.succ) :
    s.pop = some (s.stack[k.val], { s with sp := k.castSucc }) := by
  unfold State.pop
  have hv : s.sp.val = k.val + 1 := by rw [h]; rfl
  rw [dif_neg (by omega)]
  simp only [hv]
  rfl

/-! ### Checked accesses (60_exceptions.md R94) -/

/-- Everything a checked access can answer. -/
theorem access_cases {s k t : State} {c : Cause} {base n : Nat} (h : s.access c base n k = .next t) :
    (base + n ≤ 4096 ∨ n = 0) ∧ t = k ∨ n ≠ 0 ∧ 4096 < base + n ∧ t = s.raise c (max base 4096) := by
  unfold State.access at h
  split at h
  · next a ha =>
    obtain ⟨h1, h2, rfl⟩ := (outsideAt_some ..).mp ha
    cases h; exact .inr ⟨h1, h2, rfl⟩
  · next ha =>
    cases h; exact .inl ⟨((outsideAt_none ..).mp ha).symm, rfl⟩

/-- An access within memory does what follows the check. -/
theorem access_inside (s k : State) (c : Cause) {base n : Nat} (h : base + n ≤ 4096 ∨ n = 0) :
    s.access c base n k = .next k := by
  unfold State.access
  rw [(outsideAt_none ..).mpr h.symm]

/-- An access that leaves memory faults. -/
theorem access_outside (s k : State) (c : Cause) {base n : Nat} (h0 : n ≠ 0) (h : 4096 < base + n) :
    s.access c base n k = .next (s.raise c (max base 4096)) := by
  unfold State.access
  rw [(outsideAt_some ..).mpr ⟨h0, h, rfl⟩]

/-! ### Keys -/

/-- `allKeys` is every key. -/
theorem mem_allKeys (k : Key) : k ∈ allKeys := by
  revert k; decide

/-- A held key, by its entry of the set. -/
theorem keyHeld_iff (keys : KeySet) (k : Fin 16) : keyHeld keys k.val = keys[k.val] := by
  have := k.isLt
  simp [keyHeld, List.getD_eq_getElem?_getD]

/-- A value of 16 or more is no held key. -/
theorem keyHeld_of_ge (keys : KeySet) {c : Nat} (h : 16 ≤ c) : keyHeld keys c = false := by
  simp [keyHeld, List.getD_eq_getElem?_getD, h]

/-- The set is empty exactly when no key is held. -/
theorem keysEmpty_iff (keys : KeySet) : keysEmpty keys = true ↔ ∀ k : Fin 16, keys[k.val] = false := by
  simp only [keysEmpty, List.all_eq_true, Bool.not_eq_true']
  constructor
  · intro h k
    rw [← keyHeld_iff]
    exact h ⟨k⟩ (mem_allKeys _)
  · intro h k _
    have := h k.toFin
    rwa [← keyHeld_iff] at this

/-- `keyChoice` answers a held key whenever there is one. -/
theorem keyChoice_held (keys : KeySet) (h : keysEmpty keys = false) :
    keyHeld keys (keyChoice keys).toNat = true := by
  unfold keyChoice
  split
  · assumption
  · cases hf : allKeys.find? (fun k => keyHeld keys k.toNat) with
    | some k => simpa using List.find?_some hf
    | none =>
      exfalso
      rw [List.find?_eq_none] at hf
      have : keysEmpty keys = true := by
        simp only [keysEmpty, List.all_eq_true, Bool.not_eq_true']
        intro k hk
        simpa using hf k hk
      simp_all

/-! ### Flags and digits as numbers -/

@[simp] theorem bool01_true : bool01 true = 1 := rfl
@[simp] theorem bool01_false : bool01 false = 0 := rfl

/-- `bool01` as a number (00_scope.md R7). -/
theorem bool01_toNat (c : Bool) : (bool01 c).toNat = if c then 1 else 0 := by cases c <;> rfl

/-- There are three decimal digits. -/
@[simp] theorem bcdDigits_length (v : Byte) : (bcdDigits v).length = 3 := rfl

/-- The decimal digits are small enough to be bytes without truncation. -/
theorem bcdDigits_toNat (v : Byte) :
    (bcdDigits v).map BitVec.toNat = [v.toNat / 100, v.toNat / 10 % 10, v.toNat % 10] := by
  have := v.isLt
  simp only [bcdDigits, List.map_cons, List.map_nil, BitVec.toNat_ofNat]
  congr 1
  · omega
  · congr 1
    · omega
    · congr 1; omega

end Sys2Proof.Machine
end

