-- ==== Sys2Proof/Laws/Cycle.lean ====
section
/-! SUPPORT. What the parts of the execution cycle can answer (30_encoding.md R46, R47; 60_exceptions.md R100). -/

namespace Sys2Proof.Machine

variable (s : State)

/-! ### Timer aging -/

/-- Aging as one record update: the timer floors at 0. -/
theorem ageTimer_eq : ageTimer s = { s with dt := if s.dt = 0 then 0 else s.dt - 1 } := by
  unfold ageTimer
  split
  · next h => simp [← h]
  · rfl

/-- The aged timer, as a number. -/
theorem ageTimer_dt_toNat : (ageTimer s).dt.toNat = s.dt.toNat - 1 := by
  rw [ageTimer_eq]
  have := s.dt.isLt
  by_cases h : s.dt = 0
  · simp [h]
  · have h' : s.dt.toNat ≠ 0 := fun e => h (BitVec.eq_of_toNat_eq (by simpa using e))
    simp only [if_neg h]
    simp only [BitVec.toNat_sub, BitVec.ofNat_eq_ofNat, BitVec.toNat_ofNat]
    omega

@[simp] theorem ageTimer_v : (ageTimer s).v = s.v := by rw [ageTimer_eq]
@[simp] theorem ageTimer_i : (ageTimer s).i = s.i := by rw [ageTimer_eq]
@[simp] theorem ageTimer_pc : (ageTimer s).pc = s.pc := by rw [ageTimer_eq]
@[simp] theorem ageTimer_sp : (ageTimer s).sp = s.sp := by rw [ageTimer_eq]
@[simp] theorem ageTimer_stack : (ageTimer s).stack = s.stack := by rw [ageTimer_eq]
@[simp] theorem ageTimer_mem : (ageTimer s).mem = s.mem := by rw [ageTimer_eq]
@[simp] theorem ageTimer_disp : (ageTimer s).disp = s.disp := by rw [ageTimer_eq]
@[simp] theorem ageTimer_keys : (ageTimer s).keys = s.keys := by rw [ageTimer_eq]
@[simp] theorem ageTimer_fault : (ageTimer s).fault = s.fault := by rw [ageTimer_eq]
@[simp] theorem ageTimer_draws : (ageTimer s).draws = s.draws := by rw [ageTimer_eq]

/-! ### Fetch -/

/-- A fetch within memory. -/
theorem fetch_inside (h : s.pc.toNat + 2 ≤ 4096) :
    fetch s = .ok (s.mem.wordAt s.pc.toNat, { s with pc := s.pc + 2 }) := by
  unfold fetch
  rw [(outsideAt_none ..).mpr (.inr h)]

/-- A fetch that leaves memory. -/
theorem fetch_outside (h : 4096 < s.pc.toNat + 2) :
    fetch s = .error (s.enterFault s.pc .fetchOob (max s.pc.toNat 4096)) := by
  unfold fetch
  rw [(outsideAt_some ..).mpr ⟨by decide, h, rfl⟩]

/-- Everything the execution of one instruction can be: a fetch fault, a no-op, or the decoded instruction. -/
theorem executeOne_cases :
    (4096 < s.pc.toNat + 2 ∧ executeOne s = .next (s.enterFault s.pc .fetchOob (max s.pc.toNat 4096))) ∨
    (s.pc.toNat + 2 ≤ 4096 ∧ decode (s.mem.wordAt s.pc.toNat) = .nop ∧
      executeOne s = .next { s with pc := s.pc + 2 }) ∨
    (∃ i, s.pc.toNat + 2 ≤ 4096 ∧ decode (s.mem.wordAt s.pc.toNat) = .instr i ∧
      executeOne s = exec i { s with pc := s.pc + 2 }) := by
  by_cases h : s.pc.toNat + 2 ≤ 4096
  · cases hd : decode (s.mem.wordAt s.pc.toNat) with
    | nop => exact .inr (.inl ⟨h, rfl, by simp [executeOne, fetch_inside s h, hd, runDecoded]⟩)
    | instr i => exact .inr (.inr ⟨i, h, rfl, by simp [executeOne, fetch_inside s h, hd, runDecoded]⟩)
  · exact .inl ⟨by omega, by simp [executeOne, fetch_outside s (by omega)]⟩

/-- The address two beyond an address a whole word can be fetched from, as a number: no wrap (R47). -/
theorem pc_add_two (h : s.pc.toNat + 2 ≤ 4096) : (s.pc + 2).toNat = s.pc.toNat + 2 := by
  simp only [BitVec.toNat_add, BitVec.ofNat_eq_ofNat, BitVec.toNat_ofNat]
  omega

end Sys2Proof.Machine
end

