-- ==== Sys2Proof/Laws/Display.lean ====
section
/-! SUPPORT. The laws of the display controller (40_display.md R53 to R56): pixel reads after pixel writes, and what a
row of a sprite and a whole sprite do to each pixel. -/

namespace Sys2Proof.Machine

/-- A cleared display is off everywhere. -/
@[simp] theorem getPixel_clear (px : Fin 64) (py : Fin 32) : Display.clear.getPixel px py = false := by
  simp [Display.getPixel, Display.clear]

/-- A pixel read after a pixel write. -/
theorem getPixel_setPixel (d : Display) (px qx : Fin 64) (py qy : Fin 32) (b : Bool) :
    (d.setPixel px py b).getPixel qx qy = if qx = px ∧ qy = py then b else d.getPixel qx qy := by
  simp only [Display.getPixel, Display.setPixel, Fin.ext_iff, Vector.getElem_set, eq_comm (b := px.val),
    eq_comm (b := py.val)]
  by_cases hy : py.val = qy.val
  · by_cases hx : px.val = qx.val <;> simp [hx, hy]
  · simp [hy]

/-- Two displays are equal when every pixel is. -/
theorem display_ext {d e : Display} (h : ∀ px py, d.getPixel px py = e.getPixel px py) : d = e := by
  apply Vector.ext
  intro y hy
  apply Vector.ext
  intro x hx
  exact h ⟨x, hx⟩ ⟨y, hy⟩

/-- Toggling a cell, as a read. -/
theorem getPixel_toggle (acc : Display × Bool) (px qx : Fin 64) (py qy : Fin 32) :
    (toggleCell px py acc).1.getPixel qx qy =
      (acc.1.getPixel qx qy ^^ decide (qx = px ∧ qy = py)) := by
  rw [toggleCell, getPixel_setPixel]
  split
  · next h => obtain ⟨rfl, rfl⟩ := h; simp
  · next h => simp [h]

/-- Toggle a cell if a bit says so: what one bit of a sprite does. -/
def toggleIf (b : Bool) (px : Fin 64) (py : Fin 32) (acc : Display × Bool) : Display × Bool :=
  if b then toggleCell px py acc else acc

/-- What one bit does to the pixels and to the collision. -/
theorem toggleIf_spec (b : Bool) (px : Fin 64) (py : Fin 32) (acc : Display × Bool) :
    (∀ qx qy, (toggleIf b px py acc).1.getPixel qx qy =
      (acc.1.getPixel qx qy ^^ (b && decide (qx = px ∧ qy = py)))) ∧
    (toggleIf b px py acc).2 = (acc.2 || (b && acc.1.getPixel px py)) := by
  cases b with
  | false => simp [toggleIf]
  | true =>
    refine ⟨fun qx qy => ?_, ?_⟩
    · simp [toggleIf, getPixel_toggle]
    · simp [toggleIf, toggleCell]

/-- A row is its eight bits in order. -/
theorem drawRow_eq (x0 y0 : Byte) (r : Nat) (b : Byte) (acc : Display × Bool) :
    drawRow x0 y0 r b acc =
      [0, 1, 2, 3, 4, 5, 6, 7].foldl (fun a c => toggleIf (spriteBit b c) (spriteX x0 c) (spriteY y0 r) a) acc := rfl

/-- Does sprite column `c` of a row byte hit display column `qx`? -/
def columnHits (x0 : Byte) (b : Byte) (qx : Fin 64) (c : Nat) : Bool := spriteBit b c && decide (qx = spriteX x0 c)

/-- Does a row byte cover display column `qx`? -/
def rowCovers (x0 : Byte) (b : Byte) (qx : Fin 64) : Bool :=
  [0, 1, 2, 3, 4, 5, 6, 7].any (fun c => columnHits x0 b qx c)

/-- Bits folded over distinct columns: each pixel is toggled by the column that hits it, and the collision is that of
the pixels before. -/
theorem fold_toggle_spec (x0 : Byte) (b : Byte) (y : Fin 32) (cs : List Nat)
    (hcs : cs.Pairwise (fun c c' => spriteX x0 c ≠ spriteX x0 c')) (acc : Display × Bool) :
    (∀ qx qy, (cs.foldl (fun a c => toggleIf (spriteBit b c) (spriteX x0 c) y a) acc).1.getPixel qx qy =
      (acc.1.getPixel qx qy ^^ (cs.any (columnHits x0 b qx) && decide (qy = y)))) ∧
    (cs.foldl (fun a c => toggleIf (spriteBit b c) (spriteX x0 c) y a) acc).2 =
      (acc.2 || cs.any (fun c => spriteBit b c && acc.1.getPixel (spriteX x0 c) y)) := by
  induction cs generalizing acc with
  | nil => simp
  | cons c cs ih =>
    obtain ⟨hc, hcs⟩ := List.pairwise_cons.mp hcs
    obtain ⟨ih1, ih2⟩ := ih hcs (toggleIf (spriteBit b c) (spriteX x0 c) y acc)
    obtain ⟨t1, t2⟩ := toggleIf_spec (spriteBit b c) (spriteX x0 c) y acc
    refine ⟨fun qx qy => ?_, ?_⟩
    · rw [List.foldl_cons, ih1, t1, List.any_cons]
      by_cases hx : qx = spriteX x0 c
      · subst hx
        have : cs.any (columnHits x0 b (spriteX x0 c)) = false := by
          rw [List.any_eq_false]
          intro c' hc'
          simp [columnHits, hc c' hc']
        rw [this]
        by_cases hy : qy = y <;> simp [columnHits, hy]
      · simp [columnHits, hx]
    · rw [List.foldl_cons, ih2, t2, List.any_cons, Bool.or_assoc]
      congr 2
      rw [Bool.eq_iff_iff, List.any_eq_true, List.any_eq_true]
      refine exists_congr fun c' => and_congr_right fun hc' => ?_
      rw [t1]
      simp [Ne.symm (hc c' hc')]

/-- The eight columns of a row are distinct. -/
theorem spriteX_distinct (x0 : Byte) :
    [0, 1, 2, 3, 4, 5, 6, 7].Pairwise (fun c c' => spriteX x0 c ≠ spriteX x0 c') := by
  have key : ∀ c c' : Nat, c < c' → c' < 8 → spriteX x0 c ≠ spriteX x0 c' := by
    intro c c' h h8 e
    have := congrArg Fin.val e
    simp only [spriteX, Fin.val_ofNat] at this
    omega
  simp only [List.pairwise_cons, List.mem_cons, List.not_mem_nil, or_false]
  refine ⟨?_, ?_, ?_, ?_, ?_, ?_, ?_, ?_, ?_⟩
  all_goals first
    | exact List.Pairwise.nil
    | (intro a ha; apply key <;> omega)
    | simp

/-- What a row of a sprite does to each pixel, and its collision. -/
theorem drawRow_spec (x0 y0 : Byte) (r : Nat) (b : Byte) (acc : Display × Bool) :
    (∀ qx qy, (drawRow x0 y0 r b acc).1.getPixel qx qy =
      (acc.1.getPixel qx qy ^^ (rowCovers x0 b qx && decide (qy = spriteY y0 r)))) ∧
    ((drawRow x0 y0 r b acc).2 = true ↔
      acc.2 = true ∨ ∃ qx, rowCovers x0 b qx = true ∧ acc.1.getPixel qx (spriteY y0 r) = true) := by
  rw [drawRow_eq]
  obtain ⟨h1, h2⟩ := fold_toggle_spec x0 b (spriteY y0 r) _ (spriteX_distinct x0) acc
  refine ⟨h1, ?_⟩
  rw [h2, Bool.or_eq_true, List.any_eq_true]
  refine or_congr_right ⟨?_, ?_⟩
  · rintro ⟨c, hc, h⟩
    rw [Bool.and_eq_true] at h
    exact ⟨spriteX x0 c, List.any_eq_true.mpr ⟨c, hc, by simp [columnHits, h.1]⟩, h.2⟩
  · rintro ⟨qx, hq, h⟩
    obtain ⟨c, hc, h'⟩ := List.any_eq_true.mp hq
    simp only [columnHits, Bool.and_eq_true, decide_eq_true_eq] at h'
    exact ⟨c, hc, by rw [Bool.and_eq_true]; exact ⟨h'.1, h'.2 ▸ h⟩⟩

/-- Does the sprite `rows`, whose first row is sprite row `r0`, cover a pixel? -/
def spriteCovers (x0 y0 : Byte) (r0 : Nat) (rows : List Byte) (qx : Fin 64) (qy : Fin 32) : Prop :=
  ∃ j, ∃ h : j < rows.length, rowCovers x0 rows[j] qx = true ∧ qy = spriteY y0 (r0 + j)

/-- What drawing rows does to each pixel, and its collision, for rows that fit the display's height (R56: "No cell is
targeted twice in one draw"). -/
theorem drawRows_spec (x0 y0 : Byte) (rows : List Byte) (r0 : Nat) (hr : rows.length ≤ 32) (acc : Display × Bool) :
    (∀ qx qy, (drawRows x0 y0 r0 rows acc).1.getPixel qx qy = true ↔
      (acc.1.getPixel qx qy = true ↔ ¬ spriteCovers x0 y0 r0 rows qx qy)) ∧
    ((drawRows x0 y0 r0 rows acc).2 = true ↔
      acc.2 = true ∨ ∃ qx qy, spriteCovers x0 y0 r0 rows qx qy ∧ acc.1.getPixel qx qy = true) := by
  induction rows generalizing r0 acc with
  | nil => simp [drawRows, spriteCovers]
  | cons b bs ih =>
    simp only [List.length_cons] at hr
    obtain ⟨i1, i2⟩ := ih (r0 + 1) (by omega) (drawRow x0 y0 r0 b acc)
    obtain ⟨r1, r2⟩ := drawRow_spec x0 y0 r0 b acc
    have hcons : ∀ qx qy, spriteCovers x0 y0 r0 (b :: bs) qx qy ↔
        (rowCovers x0 b qx = true ∧ qy = spriteY y0 r0) ∨ spriteCovers x0 y0 (r0 + 1) bs qx qy := by
      intro qx qy
      constructor
      · rintro ⟨j, hj, h1, h2⟩
        cases j with
        | zero => exact .inl ⟨h1, h2⟩
        | succ j =>
          refine .inr ⟨j, by simpa using hj, h1, ?_⟩
          rw [h2]; congr 1; omega
      · rintro (⟨h1, h2⟩ | ⟨j, hj, h1, h2⟩)
        · exact ⟨0, by simp, h1, h2⟩
        · refine ⟨j + 1, by simpa using hj, h1, ?_⟩
          rw [h2]; congr 1; omega
    have hdisj : ∀ qx, ¬ spriteCovers x0 y0 (r0 + 1) bs qx (spriteY y0 r0) := by
      rintro qx ⟨j, hj, _, h⟩
      have := congrArg Fin.val h
      simp only [spriteY, Fin.val_ofNat] at this
      omega
    rw [drawRows]
    refine ⟨fun qx qy => ?_, ?_⟩
    · rw [i1, r1, hcons]
      by_cases hy : qy = spriteY y0 r0
      · subst hy
        have := hdisj qx
        cases rowCovers x0 b qx <;> cases acc.1.getPixel qx (spriteY y0 r0) <;> simp [this]
      · simp [hy]
    · rw [i2, r2]
      constructor
      · rintro ((h | ⟨qx, h1, h2⟩) | ⟨qx, qy, h1, h2⟩)
        · exact .inl h
        · exact .inr ⟨qx, _, (hcons ..).mpr (.inl ⟨h1, rfl⟩), h2⟩
        · refine .inr ⟨qx, qy, (hcons ..).mpr (.inr h1), ?_⟩
          rw [r1] at h2
          by_cases hy : qy = spriteY y0 r0
          · subst hy; exact absurd h1 (hdisj qx)
          · simpa [hy] using h2
      · rintro (h | ⟨qx, qy, h1, h2⟩)
        · exact .inl (.inl h)
        · rcases (hcons ..).mp h1 with ⟨h3, rfl⟩ | h3
          · exact .inl (.inr ⟨qx, h3, h2⟩)
          · refine .inr ⟨qx, qy, h3, ?_⟩
            rw [r1]
            by_cases hy : qy = spriteY y0 r0
            · subst hy; exact absurd h3 (hdisj qx)
            · simpa [hy] using h2

end Sys2Proof.Machine
end

