-- ==== Sys2Proof/Laws/PerInstr.lean ====
section
/-! SUPPORT. One lemma per instruction: its encoding is a word that a row of the opcode table recognises
(30_encoding.md R43). -/

namespace Sys2Proof.Laws

/-! ### What a mask keeps of a format's word (R42) -/

/-- The class mask keeps the class nibble of format `A`. -/
theorem formatA_class (h : Nibble) (nnn : Addr12) : formatA h nnn &&& 0xF000#16 = h ++ 0#12 := by
  have : (0xF000#16) = BitVec.allOnes 4 ++ 0#12 := rfl
  rw [this, formatA, BitVec.and_append]
  simp only [BitVec.and_allOnes, BitVec.and_zero]

/-- The class mask keeps the class nibble of format `XK`. -/
theorem formatXK_class (h : Nibble) (x : Reg) (kk : Byte) : formatXK h x kk &&& 0xF000#16 = h ++ 0#4 ++ 0#8 := by
  have : (0xF000#16) = BitVec.allOnes 4 ++ 0#4 ++ 0#8 := rfl
  rw [this, formatXK, BitVec.and_append, BitVec.and_append]
  simp only [BitVec.and_allOnes, BitVec.and_zero]

/-- The mask of format `X` keeps the class nibble and the low byte. -/
theorem formatXK_low (h : Nibble) (x : Reg) (kk : Byte) : formatXK h x kk &&& 0xF0FF#16 = h ++ 0#4 ++ kk := by
  have : (0xF0FF#16) = BitVec.allOnes 4 ++ 0#4 ++ BitVec.allOnes 8 := rfl
  rw [this, formatXK, BitVec.and_append, BitVec.and_append]
  simp only [BitVec.and_allOnes, BitVec.and_zero]

/-- The mask of format `XY` keeps the class nibble and the fourth nibble. -/
theorem formatXYN_low (h : Nibble) (x y : Reg) (n : Nibble) :
    formatXYN h x y n &&& 0xF00F#16 = h ++ 0#4 ++ 0#4 ++ n := by
  have : (0xF00F#16) = BitVec.allOnes 4 ++ 0#4 ++ 0#4 ++ BitVec.allOnes 4 := rfl
  rw [this, formatXYN, BitVec.and_append, BitVec.and_append, BitVec.and_append]
  simp only [BitVec.and_allOnes, BitVec.and_zero]

/-- The class mask keeps the class nibble of format `XYN`. -/
theorem formatXYN_class (h : Nibble) (x y : Reg) (n : Nibble) :
    formatXYN h x y n &&& 0xF000#16 = h ++ 0#4 ++ 0#4 ++ 0#4 := by
  have : (0xF000#16) = BitVec.allOnes 4 ++ 0#4 ++ 0#4 ++ 0#4 := rfl
  rw [this, formatXYN, BitVec.and_append, BitVec.and_append, BitVec.and_append]
  simp only [BitVec.and_allOnes, BitVec.and_zero]

/-! ### The family -/

/-- The instruction's word is recognised by a row of the table. -/
def Recognised.Statement (i : Instr) : Prop := ∃ r ∈ opRows true, rowMatches r (encode i) = true

/-- The k-th row recognises a word whose masked bits are its pattern. -/
theorem Recognised.of_row (i : Instr) (k : Nat) (hk : k < (opRows true).length)
    (h : encode i &&& ((opRows true)[k]).mask = ((opRows true)[k]).pattern) : Recognised.Statement i :=
  ⟨(opRows true)[k], List.getElem_mem hk, by rw [rowMatches, h, beq_self_eq_true]⟩

theorem Recognised.cls : Recognised.Statement .cls :=
  Recognised.of_row _ 0 (by decide) rfl
theorem Recognised.ret : Recognised.Statement .ret :=
  Recognised.of_row _ 1 (by decide) rfl
theorem Recognised.jp (nnn : Addr12) : Recognised.Statement (.jp nnn) :=
  Recognised.of_row _ 2 (by decide) (formatA_class ..)
theorem Recognised.call (nnn : Addr12) : Recognised.Statement (.call nnn) :=
  Recognised.of_row _ 3 (by decide) (formatA_class ..)
theorem Recognised.seImm (x : Reg) (kk : Byte) : Recognised.Statement (.seImm x kk) :=
  Recognised.of_row _ 4 (by decide) (formatXK_class ..)
theorem Recognised.sneImm (x : Reg) (kk : Byte) : Recognised.Statement (.sneImm x kk) :=
  Recognised.of_row _ 5 (by decide) (formatXK_class ..)
theorem Recognised.seReg (x : Reg) (y : Reg) : Recognised.Statement (.seReg x y) :=
  Recognised.of_row _ 6 (by decide) (formatXYN_low ..)
theorem Recognised.ldImm (x : Reg) (kk : Byte) : Recognised.Statement (.ldImm x kk) :=
  Recognised.of_row _ 7 (by decide) (formatXK_class ..)
theorem Recognised.addImm (x : Reg) (kk : Byte) : Recognised.Statement (.addImm x kk) :=
  Recognised.of_row _ 8 (by decide) (formatXK_class ..)
theorem Recognised.ldReg (x : Reg) (y : Reg) : Recognised.Statement (.ldReg x y) :=
  Recognised.of_row _ 9 (by decide) (formatXYN_low ..)
theorem Recognised.orReg (x : Reg) (y : Reg) : Recognised.Statement (.orReg x y) :=
  Recognised.of_row _ 10 (by decide) (formatXYN_low ..)
theorem Recognised.andReg (x : Reg) (y : Reg) : Recognised.Statement (.andReg x y) :=
  Recognised.of_row _ 11 (by decide) (formatXYN_low ..)
theorem Recognised.xorReg (x : Reg) (y : Reg) : Recognised.Statement (.xorReg x y) :=
  Recognised.of_row _ 12 (by decide) (formatXYN_low ..)
theorem Recognised.addReg (x : Reg) (y : Reg) : Recognised.Statement (.addReg x y) :=
  Recognised.of_row _ 13 (by decide) (formatXYN_low ..)
theorem Recognised.subReg (x : Reg) (y : Reg) : Recognised.Statement (.subReg x y) :=
  Recognised.of_row _ 14 (by decide) (formatXYN_low ..)
theorem Recognised.shr (x : Reg) (y : Reg) : Recognised.Statement (.shr x y) :=
  Recognised.of_row _ 15 (by decide) (formatXYN_low ..)
theorem Recognised.subnReg (x : Reg) (y : Reg) : Recognised.Statement (.subnReg x y) :=
  Recognised.of_row _ 16 (by decide) (formatXYN_low ..)
theorem Recognised.shl (x : Reg) (y : Reg) : Recognised.Statement (.shl x y) :=
  Recognised.of_row _ 17 (by decide) (formatXYN_low ..)
theorem Recognised.sneReg (x : Reg) (y : Reg) : Recognised.Statement (.sneReg x y) :=
  Recognised.of_row _ 18 (by decide) (formatXYN_low ..)
theorem Recognised.ldI (nnn : Addr12) : Recognised.Statement (.ldI nnn) :=
  Recognised.of_row _ 19 (by decide) (formatA_class ..)
theorem Recognised.jpV0 (nnn : Addr12) : Recognised.Statement (.jpV0 nnn) :=
  Recognised.of_row _ 20 (by decide) (formatA_class ..)
theorem Recognised.rnd (x : Reg) (kk : Byte) : Recognised.Statement (.rnd x kk) :=
  Recognised.of_row _ 21 (by decide) (formatXK_class ..)
theorem Recognised.drw (x : Reg) (y : Reg) (n : Nibble) : Recognised.Statement (.drw x y n) :=
  Recognised.of_row _ 22 (by decide) (formatXYN_class ..)
theorem Recognised.skp (x : Reg) : Recognised.Statement (.skp x) :=
  Recognised.of_row _ 23 (by decide) (formatXK_low ..)
theorem Recognised.sknp (x : Reg) : Recognised.Statement (.sknp x) :=
  Recognised.of_row _ 24 (by decide) (formatXK_low ..)
theorem Recognised.ldVxDt (x : Reg) : Recognised.Statement (.ldVxDt x) :=
  Recognised.of_row _ 25 (by decide) (formatXK_low ..)
theorem Recognised.ldVxK (x : Reg) : Recognised.Statement (.ldVxK x) :=
  Recognised.of_row _ 26 (by decide) (formatXK_low ..)
theorem Recognised.ldDtVx (x : Reg) : Recognised.Statement (.ldDtVx x) :=
  Recognised.of_row _ 27 (by decide) (formatXK_low ..)
theorem Recognised.ldStVx (x : Reg) : Recognised.Statement (.ldStVx x) :=
  Recognised.of_row _ 28 (by decide) (formatXK_low ..)
theorem Recognised.addI (x : Reg) : Recognised.Statement (.addI x) :=
  Recognised.of_row _ 29 (by decide) (formatXK_low ..)
theorem Recognised.ldF (x : Reg) : Recognised.Statement (.ldF x) :=
  Recognised.of_row _ 30 (by decide) (formatXK_low ..)
theorem Recognised.ldB (x : Reg) : Recognised.Statement (.ldB x) :=
  Recognised.of_row _ 31 (by decide) (formatXK_low ..)
theorem Recognised.ldMemVx (x : Reg) : Recognised.Statement (.ldMemVx x) :=
  Recognised.of_row _ 32 (by decide) (formatXK_low ..)
theorem Recognised.ldVxMem (x : Reg) : Recognised.Statement (.ldVxMem x) :=
  Recognised.of_row _ 33 (by decide) (formatXK_low ..)

end Sys2Proof.Laws
end

