-- ==== Sys2Proof/Tests/Slice0.lean ====
section
/-! SUPPORT. The model's own tests. Expected results are those of spec/95_test_vectors.md (the vector is named beside
each test) or of the rule named; each runs ONE step or call on a small state. The witnesses at the end show, for every
statement with hypotheses, a state and operands that meet them. -/

namespace Sys2Proof.Tests

open Sys2Proof Sys2Proof.Machine

/-! ### Helpers -/

/-- The start state of the vectors: the word at 0x200, PC there. -/
def ready (op : Word) : State := ({ State.reset with pc := 0x200 } : State).placeWord op

/-- A view of the state an answer holds. -/
def view {α : Type} (r : Result) (f : State → α) : Option α :=
  match r with
  | .next t => some (f t)
  | .fault _ => none
  | .refused _ => none

/-- One byte of memory set. -/
def poke (s : State) (a : Nat) (b : Byte) : State := { s with mem := s.mem.write a b }

/-! ### Well-formedness: a term each check refuses -/

theorem test_program_too_long_is_ill_formed : (HostCall.loadProgram (List.replicate 3585 0)).wellFormed = false := by
  rw [HostCall.wellFormed, List.length_replicate]; rfl

theorem test_longest_program_is_well_formed : (HostCall.loadProgram (List.replicate 3584 0)).wellFormed = true := by
  rw [HostCall.wellFormed, List.length_replicate]; rfl

theorem test_key_code_16_is_ill_formed : (HostCall.setKeys [3, 16]).wellFormed = false := by decide

theorem test_every_instruction_is_well_formed (i : Instr) : i.wellFormed = true := by cases i <;> rfl

/-- Memory's canonical form refuses a repeat, a wrong order, an address of 4096 and a cell at its reset value. -/
theorem test_memory_form_refuses :
    Memory.wf [(5, 1), (5, 2)] = false ∧ Memory.wf [(6, 1), (5, 2)] = false ∧ Memory.wf [(4096, 1)] = false ∧
    Memory.wf [(0, 0xF0)] = false ∧ Memory.wf [(0, 0xF1), (0xFFF, 1)] = true := by decide

/-! ### Decoding: one word for each constructor, from the patterns of 30_encoding.md R43 -/

theorem test_decode_display : decode 0x00E0 = .instr .cls ∧ decode 0xD125 = .instr (.drw 1 2 5) := by decide

theorem test_decode_control :
    decode 0x00EE = .instr .ret ∧ decode 0x1ABC = .instr (.jp 0xABC) ∧ decode 0x2ABC = .instr (.call 0xABC) ∧
    decode 0x3342 = .instr (.seImm 3 0x42) ∧ decode 0x4342 = .instr (.sneImm 3 0x42) ∧
    decode 0x5120 = .instr (.seReg 1 2) ∧ decode 0x9120 = .instr (.sneReg 1 2) ∧
    decode 0xB300 = .instr (.jpV0 0x300) := by decide

theorem test_decode_alu :
    decode 0x6A3F = .instr (.ldImm 0xA 0x3F) ∧ decode 0x7120 = .instr (.addImm 1 0x20) ∧
    decode 0x8120 = .instr (.ldReg 1 2) ∧ decode 0x8121 = .instr (.orReg 1 2) ∧
    decode 0x8122 = .instr (.andReg 1 2) ∧ decode 0x8123 = .instr (.xorReg 1 2) ∧
    decode 0x8124 = .instr (.addReg 1 2) ∧ decode 0x8125 = .instr (.subReg 1 2) ∧
    decode 0x8126 = .instr (.shr 1 2) ∧ decode 0x8127 = .instr (.subnReg 1 2) ∧
    decode 0x812E = .instr (.shl 1 2) ∧ decode 0xC30F = .instr (.rnd 3 0x0F) := by decide

theorem test_decode_index_memory :
    decode 0xA123 = .instr (.ldI 0x123) ∧ decode 0xF21E = .instr (.addI 2) ∧ decode 0xF429 = .instr (.ldF 4) ∧
    decode 0xF033 = .instr (.ldB 0) ∧ decode 0xF255 = .instr (.ldMemVx 2) ∧
    decode 0xFF65 = .instr (.ldVxMem 0xF) := by decide

theorem test_decode_input_timer :
    decode 0xE59E = .instr (.skp 5) ∧ decode 0xE5A1 = .instr (.sknp 5) ∧ decode 0xF307 = .instr (.ldVxDt 3) ∧
    decode 0xF00A = .instr (.ldVxK 0) ∧ decode 0xF115 = .instr (.ldDtVx 1) ∧
    decode 0xF318 = .instr (.ldStVx 3) := by decide

/-- DC1 to DC11. -/
theorem test_decode_unrecognised :
    [0x0123, 0x0000, 0x00E1, 0x00FF, 0x5121, 0x9121, 0x8008, 0x800F, 0xE000, 0xF0FF, 0xFFFF].map decode =
      List.replicate 11 .nop := by decide

theorem test_encode_bytes_big_endian : encodeBytes (.call 0xABC) = [0x2A, 0xBC] := by decide

theorem test_decode_bytes :
    decodeBytes [0x2A, 0xBC, 0x77] = .ok (.instr (.call 0xABC), [0x77]) ∧
    decodeBytes [0x2A] = .error .truncated := by decide

theorem test_table_word : decodeTableWord 16 0xD125 = some (.drw 1 2 5) := by decide

/-! ### Display -/

/-- DS1. -/
theorem test_cls :
    view (executeOnly { ready 0x00E0 with disp := State.reset.disp.setPixel 63 31 true })
      (fun t => (t.disp.getPixel 63 31, t.pc)) = some (false, 0x202) := by decide

/-- DS4: a sprite wraps at the right edge. -/
theorem test_drw_wraps :
    view (executeOnly { (poke (ready 0xD011) 0x300 0xFF).setReg 0 63 with i := 0x300 })
      (fun t => (t.disp.getPixel 63 0, t.disp.getPixel 0 0, t.disp.getPixel 6 0, t.disp.getPixel 7 0, t.reg 15, t.pc)) =
    some (true, true, true, false, 0, 0x202) := by decide

/-- DS3: a collision erases the cell and sets VF. -/
theorem test_drw_collides :
    view (executeOnly { ready 0xD015 with disp := State.reset.disp.setPixel 0 0 true })
      (fun t => (t.disp.getPixel 0 0, t.disp.getPixel 1 0, t.disp.getPixel 3 4, t.reg 15)) =
    some (false, true, true, 1) := by decide

/-! ### Control transfer -/

/-- CF1. -/
theorem test_ret :
    view (executeOnly { ready 0x00EE with sp := 1, stack := State.reset.stack.set 0 0x20A })
      (fun t => (t.pc, t.sp, t.stack[0])) = some (0x20A, 0, 0x20A) := by decide

/-- CF2. -/
theorem test_ret_underflow :
    view (executeOnly (ready 0x00EE)) (fun t => (t.pc, t.sp, t.fault)) =
      some (0x200, 0, some ⟨.stackUnderflow, 0x200, 0⟩) := by decide

/-- CF3. -/
theorem test_jp : view (executeOnly (ready 0x1ABC)) (fun t => t.pc) = some 0xABC := by decide

/-- CF6. -/
theorem test_call :
    view (executeOnly { ready 0x2300 with sp := 15 }) (fun t => (t.pc, t.sp, t.stack[15])) =
      some (0x300, 16, 0x202) := by decide

/-- CF7. -/
theorem test_call_overflow :
    view (executeOnly { ready 0x2300 with sp := 16 }) (fun t => (t.pc, t.sp, t.fault)) =
      some (0x200, 16, some ⟨.stackOverflow, 0x200, 0x10⟩) := by decide

/-- CF8 and CF9. -/
theorem test_se_imm :
    view (executeOnly ((ready 0x3342).setReg 3 0x42)) (fun t => t.pc) = some 0x204 ∧
    view (executeOnly ((ready 0x3342).setReg 3 0x41)) (fun t => t.pc) = some 0x202 := by decide

/-- CF10 and CF11. -/
theorem test_sne_imm :
    view (executeOnly ((ready 0x4342).setReg 3 0x42)) (fun t => t.pc) = some 0x202 ∧
    view (executeOnly ((ready 0x4342).setReg 3 0x41)) (fun t => t.pc) = some 0x204 := by decide

/-- CF12 and CF13. -/
theorem test_se_reg :
    view (executeOnly (((ready 0x5120).setReg 1 7).setReg 2 7)) (fun t => t.pc) = some 0x204 ∧
    view (executeOnly (((ready 0x5120).setReg 1 7).setReg 2 8)) (fun t => t.pc) = some 0x202 := by decide

/-- CF15 and CF16. -/
theorem test_sne_reg :
    view (executeOnly (((ready 0x9120).setReg 1 7).setReg 2 8)) (fun t => t.pc) = some 0x204 ∧
    view (executeOnly (((ready 0x9120).setReg 1 7).setReg 2 7)) (fun t => t.pc) = some 0x202 := by decide

/-- CF18: not truncated. -/
theorem test_jp_v0 :
    view (executeOnly ((ready 0xBFFF).setReg 0 0xFF)) (fun t => (t.pc, t.fault)) = some (0x10FE, none) := by decide

/-! ### Arithmetic and logic -/

/-- AL1. -/
theorem test_ld_imm : view (executeOnly (ready 0x6A3F)) (fun t => (t.reg 0xA, t.pc)) = some (0x3F, 0x202) := by decide

/-- AL2: no flag. -/
theorem test_add_imm :
    view (executeOnly (((ready 0x7120).setReg 1 0xF0).setReg 15 0x55)) (fun t => (t.reg 1, t.reg 15)) =
      some (0x10, 0x55) := by decide

/-- AL4. -/
theorem test_ld_reg : view (executeOnly ((ready 0x8120).setReg 2 9)) (fun t => (t.reg 1, t.reg 2)) = some (9, 9) := by
  decide

/-- AL5: VF is not reset. -/
theorem test_or :
    view (executeOnly ((((ready 0x8121).setReg 1 0x0F).setReg 2 0xF0).setReg 15 0x55)) (fun t => (t.reg 1, t.reg 15)) =
      some (0xFF, 0x55) := by decide

/-- AL6. -/
theorem test_and :
    view (executeOnly ((((ready 0x8122).setReg 1 0x3C).setReg 2 0x0F).setReg 15 0x55)) (fun t => (t.reg 1, t.reg 15)) =
      some (0x0C, 0x55) := by decide

/-- AL7. -/
theorem test_xor :
    view (executeOnly ((((ready 0x8123).setReg 1 0xFF).setReg 2 0x0F).setReg 15 0x55)) (fun t => (t.reg 1, t.reg 15)) =
      some (0xF0, 0x55) := by decide

/-- S4. -/
theorem test_add_carry :
    view (executeOnly (((ready 0x8014).setReg 0 250).setReg 1 10)) (fun t => (t.reg 0, t.reg 15)) = some (4, 1) := by
  decide

/-- AL11: with x = 15 the flag is written last. -/
theorem test_add_vf :
    view (executeOnly (((ready 0x8F14).setReg 15 0x10).setReg 1 0xF5)) (fun t => (t.reg 15, t.reg 1)) =
      some (1, 0xF5) := by decide

/-- S5a. -/
theorem test_sub_borrow :
    view (executeOnly (((ready 0x8015).setReg 0 5).setReg 1 10)) (fun t => (t.reg 0, t.reg 15)) = some (251, 0) := by
  decide

/-- AL13: equality is no borrow. -/
theorem test_sub_equal :
    view (executeOnly (((ready 0x8015).setReg 0 7).setReg 1 7)) (fun t => (t.reg 0, t.reg 15)) = some (0, 1) := by
  decide

/-- AL18: y is ignored. -/
theorem test_shr :
    view (executeOnly (((ready 0x8126).setReg 1 0x05).setReg 2 0xFF)) (fun t => (t.reg 1, t.reg 2, t.reg 15)) =
      some (0x02, 0xFF, 1) := by decide

/-- AL19: with x = 15 the flag is shifted. -/
theorem test_shr_vf : view (executeOnly ((ready 0x8F06).setReg 15 0x03)) (fun t => t.reg 15) = some 0 := by decide

/-- AL21. -/
theorem test_subn :
    view (executeOnly ((ready 0x8017).setReg 0 0xFF)) (fun t => (t.reg 0, t.reg 15)) = some (0x01, 0) := by decide

/-- AL24: 0x80, not 1. -/
theorem test_shl : view (executeOnly ((ready 0x820E).setReg 2 0x80)) (fun t => (t.reg 2, t.reg 15)) = some (0, 0x80) := by
  decide

/-- AL25. -/
theorem test_shl_vf : view (executeOnly ((ready 0x8FFE).setReg 15 0xFF)) (fun t => t.reg 15) = some 0 := by decide

/-- AL29 and AL30, with the draw free. -/
theorem test_rnd :
    view (executeOnly ((ready 0xC3FF).setReg 3 0x99)) (fun t => (t.reg 3, t.pc, t.draws)) =
      some (Config.rnd 0, 0x202, 1) ∧
    view (executeOnly ((ready 0xC300).setReg 3 0x99)) (fun t => (t.reg 3, t.draws)) = some (0, 1) := by
  constructor
  · show some (Config.rnd 0 &&& 0xFF, (0x202 : Addr), 1) = _
    rw [show (0xFF : Byte) = BitVec.allOnes 8 from rfl, BitVec.and_allOnes]
  · show some (Config.rnd 0 &&& 0#8, 1) = _
    rw [BitVec.and_zero]; rfl

/-! ### Index register and memory -/

/-- IM1. -/
theorem test_ld_i : view (executeOnly (ready 0xA123)) (fun t => (t.i, t.pc)) = some (0x123, 0x202) := by decide

/-- IM4. -/
theorem test_add_i :
    view (executeOnly { (ready 0xF21E).setReg 2 0xFF with i := 0xFF00 }) (fun t => (t.i, t.reg 15, t.pc)) =
      some (0xFFFF, 0, 0x202) := by decide

/-- IM5. -/
theorem test_add_i_overflow :
    view (executeOnly { (ready 0xF21E).setReg 2 1 with i := 0xFFFF }) (fun t => (t.i, t.pc, t.fault)) =
      some (0xFFFF, 0x200, some ⟨.indexOverflow, 0x200, 0x10000⟩) := by decide

/-- IM7: unmasked. -/
theorem test_ld_f : view (executeOnly ((ready 0xF029).setReg 0 0x1A)) (fun t => t.i) = some 0x082 := by decide

/-- S6. -/
theorem test_ld_b :
    view (executeOnly { (ready 0xF033).setReg 0 234 with i := 0x300 }) (fun t => (t.mem.readBytes 0x300 3, t.i)) =
      some ([2, 3, 4], 0x300) := by decide

/-- IM12: checked whole, no partial write. -/
theorem test_ld_b_fault :
    view (executeOnly { (ready 0xF033).setReg 0 7 with i := 0xFFE }) (fun t => (t.mem.readBytes 0xFFE 2, t.pc, t.fault)) =
      some ([0, 0], 0x200, some ⟨.memWrite, 0x200, 0x1000⟩) := by decide

/-- IM13. -/
theorem test_dump :
    view (executeOnly { (((ready 0xF255).setReg 0 1).setReg 1 2).setReg 2 3 with i := 0x300 })
      (fun t => (t.mem.readBytes 0x300 4, t.i, t.pc)) = some ([1, 2, 3, 0], 0x300, 0x202) := by decide

/-- IM15. -/
theorem test_dump_fault :
    view (executeOnly { (ready 0xFF55).setReg 0 0x11 with i := 0xFF1 }) (fun t => (t.mem.read 0xFF1, t.fault)) =
      some (0, some ⟨.memWrite, 0x200, 0x1000⟩) := by decide

/-- IM18: VF is an ordinary destination. -/
theorem test_load :
    view (executeOnly { (poke (ready 0xFF65) 0x30F 0x77).setReg 0 1 with i := 0x300 })
      (fun t => (t.reg 0, t.reg 14, t.reg 15, t.i)) = some (0, 0, 0x77, 0x300) := by decide

/-- IM20: never reduced modulo 65536. -/
theorem test_load_fault :
    view (executeOnly { ready 0xF265 with i := 0xFFFE }) (fun t => (t.pc, t.fault)) =
      some (0x200, some ⟨.memRead, 0x200, 0xFFFE⟩) := by decide

/-! ### Input and timer -/

/-- Key 5 held. -/
def key5 : KeySet := State.reset.keys.set 5 true

/-- KT1 and KT3. -/
theorem test_skp :
    view (executeOnly { (ready 0xE09E).setReg 0 5 with keys := key5 }) (fun t => t.pc) = some 0x204 ∧
    view (executeOnly { (ready 0xE09E).setReg 0 0x15 with keys := key5 }) (fun t => t.pc) = some 0x202 := by decide

/-- KT4 and KT6. -/
theorem test_sknp :
    view (executeOnly { (ready 0xE0A1).setReg 0 5 with keys := key5 }) (fun t => t.pc) = some 0x202 ∧
    view (executeOnly { (ready 0xE0A1).setReg 0 0x15 with keys := key5 }) (fun t => t.pc) = some 0x204 := by decide

/-- KT8: aged first. -/
theorem test_ld_vx_dt :
    view (tick { ready 0xF007 with dt := 0x20 }) (fun t => (t.reg 0, t.dt)) = some (0x1F, 0x1F) := by decide

/-- KT10. -/
theorem test_key_wait :
    view (executeOnly ((ready 0xF00A).setReg 0 0x33)) (fun t => (t.pc, t.reg 0)) = some (0x200, 0x33) := by decide

/-- KT12: the loaded key is a member of the set. -/
theorem test_key_load :
    exec (.ldVxK 0) { ready 0xF00A with keys := key5 } =
      .next (({ ready 0xF00A with keys := key5 } : State).setReg 0 (keyByte (keyChoice key5))) ∧
    keyHeld key5 (keyChoice key5).toNat = true := ⟨rfl, keyChoice_held key5 (by decide)⟩

/-- KT13: aged, then loaded. -/
theorem test_ld_dt :
    view (tick { (ready 0xF015).setReg 0 0x3C with dt := 9 }) (fun t => (t.dt, t.pc)) = some (0x3C, 0x202) := by decide

/-- KT14. -/
theorem test_ld_st :
    executeOnly ((ready 0xF018).setReg 0 0x3C) = .next { (ready 0xF018).setReg 0 0x3C with pc := 0x202 } := rfl

/-! ### The cycle, faults, and the host's calls -/

/-- S11 (b): the timer floors at 0, and an unrecognised word only advances PC. -/
theorem test_tick_nop :
    view (tick { ready 0x0123 with dt := 0 }) (fun t => (t.dt, t.pc, t.fault)) = some (0, 0x202, none) := by decide

/-- CF21: the fetch is checked whole. -/
theorem test_fetch_fault :
    view (tick { ready 0x0000 with pc := 0xFFF, dt := 5 }) (fun t => (t.pc, t.dt, t.fault)) =
      some (0xFFF, 4, some ⟨.fetchOob, 0xFFF, 0x1000⟩) := by decide

/-- A halted machine. -/
def halted : State := { ready 0x6A3F with fault := some ⟨.stackOverflow, 0x200, 16⟩, dt := 5, keys := key5 }

/-- FX1. -/
theorem test_halted : step halted = .next halted := rfl

/-- FX4. -/
theorem test_load_program_while_halted :
    view (hostCall (.loadProgram [0x12, 0x00]) halted) (fun t => (t.mem.readBytes 0x200 2, t.pc, t.fault.isSome)) =
      some ([0x12, 0x00], 0x200, true) := by decide

/-- S10: reset keeps KEYS. -/
theorem test_reset :
    view (hostCall .reset (poke halted 0 0)) (fun t => (t.mem.read 0, t.pc, t.dt, t.fault, t.keys[5])) =
      some (0xF0, 0, 0, none, true) := by decide

/-- A key code above 0xF has no move (70_reset_and_hazards.md R113). -/
theorem test_set_keys_refused : hostCall (.setKeys [16]) State.reset = .refused .keyCodeOutOfRange := rfl

/-- R111: cell (3, 2) is at position 131. -/
theorem test_display_buffer :
    (displayBuffer { State.reset with disp := State.reset.disp.setPixel 3 2 true })[131]? = some true := by decide

/-- From reset with nothing placed, the first word is the glyph bytes F0 90, a no-op (R115). -/
theorem test_first_step_after_reset : view (step State.reset) (fun t => t.pc) = some 0x002 := by decide

/-- A placed word is what the first step after reset runs. -/
theorem test_with_fetch_word :
    view (step (State.reset.withFetchWord 16 0x6A3F)) (fun t => (t.reg 0xA, t.pc)) = some (0x3F, 0x002) := by decide

/-- A word placed on a halted machine, or where no word fits, is run too. -/
theorem test_with_fetch_word_elsewhere :
    view (step (({ halted with pc := 0xFFFF } : State).withFetchWord 16 0x6A3F)) (fun t => (t.reg 0xA, t.pc)) =
      some (0x3F, 0x202) := by decide

/-! ### Witnesses: for each statement with hypotheses, a state and operands that meet them, each clause at a boundary -/

/-- Every step and every instruction whose answer a statement supposes gives one on this state. -/
def base : State := ready 0x6A3F

theorem test_witness_DecodeOfEncodeIsTheInstruction : (Instr.drw 0xF 0 0xF).wellFormed = true := rfl

theorem test_witness_EncodeOfDecodeIsTheWord : decode 0xDF0F = .instr (.drw 0xF 0 0xF) := by decide

theorem test_witness_WordsMatchARowOnEveryMaskBit : (0xF : Nibble) ≠ 0 ∧ (1 : Nibble) ≠ 0 := by decide

theorem test_witness_FetchReadsBigEndianAndAdvances :
    ({ base with pc := 0xFFE } : State).pc.toNat + 1 < 4096 ∧ ({ base with pc := 0xFFF } : State).pc.toNat + 1 ≥ 4096 ∧
    ({ base with pc := 0xFFFF } : State).pc.toNat + 1 ≥ 4096 := by decide

theorem test_witness_StepRunsTheDecodedInstruction :
    base.fault = none ∧ base.pc.toNat + 1 < 4096 ∧
    decode (wordOfBytes (base.mem.read base.pc.toNat) (base.mem.read (base.pc.toNat + 1))) =
      .instr (.ldImm 0xA 0x3F) := by decide

/-- At the last address a word can be fetched from. -/
theorem test_witness_StepOnUnrecognisedWordOnlyAdvances :
    ({ base with pc := 0xFFE } : State).fault = none ∧ ({ base with pc := 0xFFE } : State).pc.toNat + 1 < 4096 ∧
    decode (wordOfBytes (base.mem.read 0xFFE) (base.mem.read 0xFFF)) = .nop := by decide

theorem test_witness_TickAgesTheTimerOnceBeforeTheFetch :
    base.fault = none ∧ (∃ t, executeOnly base = .next t) ∧ halted.fault ≠ none ∧ ∃ t, tick halted = .next t :=
  ⟨rfl, ⟨_, rfl⟩, by decide, ⟨_, rfl⟩⟩

theorem test_witness_FaultEntryIsPrecise :
    (ready 0x00EE).fault = none ∧ ∃ t, step (ready 0x00EE) = .next t ∧ t.fault ≠ none := by
  refine ⟨rfl, _, rfl, ?_⟩
  decide

theorem test_witness_FaultsAreThoseOfTheTable :
    base.fault = none ∧ faultOf .ret base = some (.stackUnderflow, 0) ∧ faultOf (.call 0) base = none ∧
    faultOf (.call 0) { base with sp := 16 } = some (.stackOverflow, 16) ∧
    faultOf (.drw 0 0 1) { base with i := 0x1000 } = some (.memRead, 0x1000) ∧
    faultOf (.drw 0 0 1) { base with i := 0xFFF } = none ∧ faultOf (.drw 0 0 0) { base with i := 0xFFFF } = none ∧
    faultOf (.ldVxMem 15) { base with i := 0xFF1 } = some (.memRead, 0x1000) ∧
    faultOf (.ldVxMem 15) { base with i := 0xFF0 } = none ∧
    faultOf (.ldB 0) { base with i := 0xFFE } = some (.memWrite, 0x1000) ∧
    faultOf (.ldB 0) { base with i := 0xFFD } = none ∧
    faultOf (.ldMemVx 0) { base with i := 0xFFFF } = some (.memWrite, 0xFFFF) ∧
    faultOf (.ldMemVx 0) { base with i := 0xFFF } = none ∧
    faultOf (.addI 0) { base.setReg 0 1 with i := 0xFFFF } = some (.indexOverflow, 0x10000) ∧
    faultOf (.addI 0) { base with i := 0xFFFF } = none := by decide

theorem test_witness_HaltedMachineOnlyLeavesByReset :
    halted.fault ≠ none ∧ (∀ k ∈ [0, 15], k < 16) ∧ (List.replicate 3584 (0 : Byte)).length ≤ 3584 := by
  refine ⟨by decide, by decide, ?_⟩
  rw [List.length_replicate]

theorem test_witness_ReturnPopsOrUnderflows :
    base.sp.val = 0 ∧ ({ base with sp := 1 } : State).sp = (0 : Fin 16).succ ∧
    ({ base with sp := 16 } : State).sp = (15 : Fin 16).succ := by decide

theorem test_witness_CallPushesOrOverflows :
    ({ base with sp := 16 } : State).sp.val = 16 ∧ base.sp = (0 : Fin 16).castSucc ∧
    ({ base with sp := 15 } : State).sp = (15 : Fin 16).castSucc := by decide

theorem test_witness_SkipsCompareTwoRegisters : (15 : Reg) = 15 := rfl

theorem test_witness_ReturnUndoesCall :
    ({ base with sp := 15 } : State).sp.val < 16 ∧ ∃ t, exec (.call 0x300) { base with sp := 15 } = .next t :=
  ⟨by decide, _, rfl⟩

/-- The clauses on x of ADD, SUB, SUBN, SHR and SHL. -/
theorem test_witness_AddRegistersSetsCarry : (14 : Reg) ≠ 15 ∧ (0 : Reg) ≠ 15 ∧ (14 : Reg) ≠ 0 := by decide

theorem test_witness_SubtractionsSetNoBorrow : (14 : Reg) ≠ 15 ∧ (13 : Reg) ≠ 14 := by decide

theorem test_witness_ShiftRightHalvesAndFlagsBit0 : (14 : Reg) ≠ 15 ∧ (15 : Reg) = 15 ∧ (0 : Reg) ≠ 14 := by decide

theorem test_witness_ShiftLeftDoublesAndFlags0x80 : (14 : Reg) ≠ 15 ∧ (15 : Reg) = 15 ∧ (0 : Reg) ≠ 14 := by decide

theorem test_witness_LoadsAndAddImmediateWriteOnlyVx : (0 : Reg) ≠ 15 := by decide

theorem test_witness_LogicOperationsActBitwise : (0 : Reg) ≠ 15 ∧ 7 < 8 := by decide

theorem test_witness_RandomByteIsMasked : (0 : Byte) = 0 ∧ (0 : Reg) ≠ 15 ∧ 7 < 8 := by decide

theorem test_witness_AddToIndexOrOverflows :
    0xFFFF + (base.setReg 0 1 |>.reg 0).toNat > 0xFFFF ∧ 0xFFFF + (base.reg 0).toNat ≤ 0xFFFF := by decide

theorem test_witness_BcdStoresThreeDigits :
    ({ base with i := 0xFFE } : State).i.toNat + 2 ≥ 4096 ∧
    ({ base with i := 0xFFD } : State).i.toNat + 2 < 4096 ∧ base.mem.wf = true ∧
    0xFFC < ({ base with i := 0xFFD } : State).i.toNat ∧ base.i.toNat + 3 ≤ 3 := by decide

theorem test_witness_DumpStoresV0ToVx :
    ({ base with i := 0xFF1 } : State).i.toNat + (15 : Reg).toNat ≥ 4096 ∧
    ({ base with i := 0xFF0 } : State).i.toNat + (15 : Reg).toNat < 4096 ∧ base.mem.wf = true ∧
    (15 : Reg).toNat ≤ (15 : Reg).toNat ∧ 0xFEF < ({ base with i := 0xFF0 } : State).i.toNat := by decide

theorem test_witness_LoadFillsV0ToVx :
    ({ base with i := 0xFFFF } : State).i.toNat + (0 : Reg).toNat ≥ 4096 ∧
    ({ base with i := 0xFFF } : State).i.toNat + (0 : Reg).toNat < 4096 := by decide

theorem test_witness_LoadUndoesDump :
    base.mem.wf = true ∧ base.i.toNat + (15 : Reg).toNat < 4096 ∧
    ∃ t, exec (.ldMemVx 15) base = .next t ∧ t.i = base.i := by
  refine ⟨by decide, by decide, _, rfl, ?_⟩
  rfl

/-- V0 = V1 = 0 and I = 0: glyph 0 at the corner, on a clear display and with one of its cells on. -/
theorem test_witness_DrawTogglesTheSpriteCells :
    ((1 : Nibble) ≠ 0 ∧ ({ base with i := 0x1000 } : State).i.toNat + (1 : Nibble).toNat > 4096) ∧
    ({ base with i := 0xFFF } : State).i.toNat + (1 : Nibble).toNat ≤ 4096 ∧
    SpriteHits base 0 1 5 3 4 ∧ base.disp.getPixel 3 4 = false ∧
    ({ base with disp := base.disp.setPixel 3 4 true } : State).disp.getPixel 3 4 = true ∧
    (∀ px py, SpriteHits base 0 1 0 px py → base.disp.getPixel px py = false) := by
  refine ⟨by decide, by decide, ⟨4, 3, by decide⟩, by decide, by decide, ?_⟩
  rintro px py ⟨r, _, h, _⟩
  exact absurd h (Nat.not_lt_zero r)

theorem test_witness_SpriteBlitTogglesCellsAndReportsCollision :
    (List.replicate 15 (0x01 : Byte)).length ≤ 15 ∧
    (∃ r c : Nat, ∃ _ : r < [(0x01 : Byte)].length, c < 8 ∧ (6 : Fin 64).val = ((0xFF : Byte).toNat + c) % 64 ∧
      (31 : Fin 32).val = ((0xFF : Byte).toNat + r) % 32 ∧ [(0x01 : Byte)][r].toNat / 2 ^ (7 - c) % 2 = 1) := by
  refine ⟨by decide, 0, 7, by decide, by decide, by decide, by decide, by decide⟩

theorem test_witness_DrawingTwiceRestoresTheDisplay :
    (0 : Reg) ≠ 15 ∧ (1 : Reg) ≠ 15 ∧ base.i.toNat + (5 : Nibble).toNat ≤ 4096 ∧
    ∃ t u, exec (.drw 0 1 5) base = .next t ∧ exec (.drw 0 1 5) t = .next u :=
  ⟨by decide, by decide, by decide, _, _, rfl, rfl⟩

theorem test_witness_DrawingTwiceRestoresTheDisplay_vf_and_no_rows :
    (∃ t u, exec (.drw 15 15 5) base = .next t ∧ exec (.drw 15 15 5) t = .next u ∧ t.reg 15 = base.reg 15) ∧
    ∃ t u, exec (.drw 0 1 0) { base with i := 0xFFFF } = .next t ∧ exec (.drw 0 1 0) t = .next u :=
  ⟨⟨_, _, rfl, rfl, by decide⟩, _, _, rfl, rfl⟩

theorem test_witness_KeySkipsTestTheLiveKeySet :
    (base.setReg 0 15 |>.reg 0).toNat = (15 : Fin 16).val ∧ (base.setReg 0 16 |>.reg 0).toNat ≥ 16 := by decide

theorem test_witness_KeyWaitRetriesOrLoadsAHeldKey :
    (∀ k : Fin 16, (ready 0xF00A).keys[k.val] = false) ∧ (ready 0xF00A).fault = none ∧
    (ready 0xF00A).pc.toNat + 1 < 4096 ∧
    decode (wordOfBytes ((ready 0xF00A).mem.read 0x200) ((ready 0xF00A).mem.read 0x201)) = .instr (.ldVxK 0) ∧
    ∃ k : Fin 16, halted.keys[k.val] = true := ⟨by decide, rfl, by decide, by decide, 5, by decide⟩

theorem test_witness_RegistersChangeOnlyWhereWritten :
    ∃ t, exec (.addReg 0 1) base = .next t ∧ mayWriteReg (.addReg 0 1) 2 = false := ⟨_, rfl, by decide⟩

theorem test_witness_IndexTimerAndKeysFrame :
    (∃ t, exec (.ldImm 0 1) base = .next t) ∧ mayWriteI (.ldImm 0 1) = false ∧ (∀ x, Instr.ldImm 0 1 ≠ .ldDtVx x) ∧
    ∀ x kk, Instr.ldImm 0 1 ≠ .rnd x kk := by
  refine ⟨⟨_, rfl⟩, rfl, ?_, ?_⟩ <;> intros <;> simp

theorem test_witness_StackChangesOnlyInCallAndReturn :
    (∃ t, exec (.jp 0) base = .next t) ∧ Instr.jp 0 ≠ .ret ∧ (∀ nnn, Instr.jp 0 ≠ .call nnn) ∧
    (15 : Fin 16).val ≠ base.sp.val := by
  refine ⟨⟨_, rfl⟩, by decide, ?_, by decide⟩
  intros; simp

theorem test_witness_DisplayAndFaultFrame :
    (∃ t, exec (.jp 0) base = .next t) ∧ Instr.jp 0 ≠ .cls ∧ (∀ x y n, Instr.jp 0 ≠ .drw x y n) ∧
    faultOf (.jp 0) base = none := by
  refine ⟨⟨_, rfl⟩, by decide, ?_, rfl⟩
  intros; simp

theorem test_witness_MemoryChangesOnlyAtStoredBytes :
    (∃ t, exec (.ldB 0) { base with i := 0x300 } = .next t) ∧ storedBytes (.jp 0) = 0 ∧ base.mem.wf = true ∧
    0x2FF < ({ base with i := 0x300 } : State).i.toNat ∧
    ({ base with i := 0x300 } : State).i.toNat + storedBytes (.ldB 0) ≤ 0x303 :=
  ⟨⟨_, rfl⟩, rfl, by decide, by decide, by decide⟩

/-- With an occupied stack entry. -/
theorem test_witness_EveryStepKeepsTheInvariant :
    ({ base with sp := 1 } : State).Inv ∧ ∃ t, step { base with sp := 1 } = .next t := by
  refine ⟨⟨by decide, ⟨by decide, by decide⟩, ?_⟩, _, rfl⟩
  rintro r ⟨⟩

theorem test_witness_EveryStepKeepsPcBounded :
    ({ base with pc := 0x10FE, sp := 16 } : State).pcBounded ∧
    ∃ t, step { base with pc := 0x10FE, sp := 16 } = .next t := ⟨⟨by decide, by decide⟩, _, rfl⟩

theorem test_witness_HostCallsKeepMemoryAndPc :
    base.mem.wf = true ∧ base.pcBounded ∧ ∃ t, hostCall (.setKeys [5]) base = .next t :=
  ⟨by decide, ⟨by decide, by decide⟩, _, rfl⟩

theorem test_witness_NormalEndOnlyAgesTheTimer : (ready 0x1200).normalEnd :=
  ⟨rfl, by decide, by decide⟩

theorem test_witness_PowerOnIsResetWithNoKeys :
    (∀ k : Fin 16, base.keys[k.val] = false) ∧ base.draws = 0 := by decide

theorem test_witness_ResetLeavesTheListedValues : (80 ≤ 80 ∧ 80 < 4096) ∧ 80 ≤ 4095 ∧ 4095 < 4096 := by decide

theorem test_witness_LoadProgramWritesTheImage :
    [(0x12 : Byte), 0x00].length ≤ 3584 ∧ base.mem.wf = true ∧ [(0x12 : Byte), 0x00][1]? = some 0x00 ∧
    (List.replicate 3585 (0 : Byte)).length > 3584 := by
  refine ⟨by decide, by decide, by decide, ?_⟩
  rw [List.length_replicate]; decide

theorem test_witness_SetKeysReplacesTheSet : (∀ k ∈ [0, 15], k < 16) ∧ ∃ k ∈ [3, 16], k ≥ 16 := by decide

end Sys2Proof.Tests
end

/-! ### What an instruction can do

Every instruction either raises the fault that the table of 60_exceptions.md R93 gives it, or completes and writes one
part of the state. The frames and the invariants of 10_state.md follow from this case analysis. -/

namespace Sys2Proof.Machine

/-! #### Register writes -/

/-- `t` differs from `s` at most in the registers that `i` may write (10_state.md R10, R23). -/
def WritesRegs (i : Instr) (s t : State) : Prop :=
  OnlyRegs s t ∧ ∀ r, mayWriteReg i r = false → t.reg r = s.reg r

theorem WritesRegs.refl (i : Instr) (s : State) : WritesRegs i s s := ⟨rfl, fun _ _ => rfl⟩

/-- One more register write of the instruction's own. -/
theorem WritesRegs.setReg {i : Instr} {s t : State} {x : Reg} {b : Byte} (h : WritesRegs i s t)
    (hx : mayWriteReg i x = true := by simp [mayWriteReg, vf]) : WritesRegs i s (t.setReg x b) := by
  obtain ⟨honly, hframe⟩ := h
  refine ⟨?_, fun r hr => ?_⟩
  · obtain ⟨v, rfl⟩ : ∃ v, t = { s with v := v } := ⟨_, honly⟩
    rfl
  · have hne : r ≠ x := by rintro rfl; simp [hx] at hr
    rw [reg_setReg, if_neg hne, hframe r hr]

/-- A list load of `V0..Vx` writes the registers up to `Vx` (43_index_memory.md R85). -/
theorem writesRegs_setRegs (x : Reg) (s : State) (bs : List Byte) (hbs : bs.length = regCount x) :
    WritesRegs (.ldVxMem x) s (s.setRegs 0 bs) := by
  refine ⟨setRegs_frame s bs 0, fun r hr => ?_⟩
  have hlen : bs.length = x.toNat + 1 := hbs
  have hxr : ¬ r.toNat ≤ x.toNat := by simpa [mayWriteReg] using hr
  rw [reg_setRegs _ _ _ _ (by omega), dif_neg (by omega)]

/-! #### Bounds of the jump targets (10_state.md R12) -/

theorem absAddr_le (nnn : Addr12) : (absAddr nnn).toNat ≤ 0xFFF := by
  have hn := nnn.isLt
  rw [absAddr, BitVec.toNat_setWidth]
  omega

/-- `nnn + V0` is at most 0xFFF + 0xFF (41_control_flow.md R66). -/
theorem offsetTarget_le (s : State) (nnn : Addr12) : (s.offsetTarget nnn).toNat ≤ 0x10FE := by
  have hn := nnn.isLt
  have hv := (s.reg 0).isLt
  rw [State.offsetTarget, BitVec.toNat_add, BitVec.toNat_setWidth, BitVec.toNat_setWidth]
  omega

/-! #### The two outcomes of `exec` -/

/-- What an instruction that raises no fault does to the state, by the part of it that it writes. -/
inductive Completes (s : State) : Instr → State → Prop
  | regs {i : Instr} (v : Vector Byte 16) (h : WritesRegs i s { s with v := v }) : Completes s i { s with v := v }
  | skip {i : Instr} (q : Bool) : Completes s i (s.skipIf q)
  | jump {i : Instr} (a : Addr) (ha : a.toNat ≤ 0x10FE) : Completes s i (s.jump a)
  | rewind {i : Instr} : Completes s i s.rewind
  | ret (k : Fin 16) (hk : s.sp = k.succ) :
    Completes s .ret (({ s with sp := k.castSucc } : State).jump s.stack[k.val])
  | call (nnn : Addr12) (k : Fin 16) (hk : s.sp = k.castSucc) :
    Completes s (.call nnn)
      (({ s with stack := s.stack.set k.val s.pc k.isLt, sp := k.succ } : State).jump (absAddr nnn))
  | index {i : Instr} (hi : mayWriteI i = true) (a : Addr) : Completes s i { s with i := a }
  | store {i : Instr} (bs : List Byte) (hlen : bs.length = storedBytes i) (hin : s.i.toNat + bs.length ≤ 4096) :
    Completes s i { s with mem := s.mem.writeBytes s.i.toNat bs }
  | timer (x : Reg) : Completes s (.ldDtVx x) { s with dt := s.reg x }
  | random (x : Reg) (kk b : Byte) : Completes s (.rnd x kk) (s.countDraw.setReg x b)
  | clear : Completes s .cls { s with disp := Display.clear }
  | draw (x y : Reg) (n : Nibble) (d : Display) (b : Byte) :
    Completes s (.drw x y n) (({ s with disp := d } : State).setReg vf b)

theorem WritesRegs.completes {i : Instr} {s t : State} (h : WritesRegs i s t) : Completes s i t := by
  obtain ⟨v, rfl⟩ : ∃ v, t = { s with v := v } := ⟨_, h.1⟩
  exact .regs v h

/-- A row of the table of causes, `if p then some f else none`, gives a fault where its condition holds. -/
theorem fault_if_eq_some {p : Prop} [Decidable p] {c c' : Cause} {a a' : Nat} :
    (if p then some (c', a') else none) = some (c, a) ↔ p ∧ c' = c ∧ a' = a := by simp

theorem fault_if_eq_none {p : Prop} [Decidable p] {f : Cause × Nat} :
    (if p then some f else none) = none ↔ ¬ p := by simp

/-- An instruction faults where the table says so, with the cause and the address of its row (60_exceptions.md R93). -/
theorem exec_of_faultOf_some {i : Instr} {s : State} {c : Cause} {a : Nat} (h : faultOf i s = some (c, a)) :
    exec i s = .next (s.raise c a) := by
  cases i with
  | ret =>
    obtain ⟨hsp, rfl, rfl⟩ := fault_if_eq_some.mp h
    simp only [exec, execRet, (pop_none s).mpr hsp]
  | call nnn =>
    obtain ⟨hsp, rfl, rfl⟩ := fault_if_eq_some.mp h
    simp only [exec, execCall, (push_none s s.pc).mpr hsp]
  | addI x =>
    obtain ⟨hsum, rfl, rfl⟩ := fault_if_eq_some.mp h
    exact if_pos hsum
  | drw x y n =>
    obtain ⟨⟨hn, hout⟩, rfl, rfl⟩ := fault_if_eq_some.mp h
    exact access_outside (base := s.i.toNat) _ _ _ (by bv_omega) hout
  | ldVxMem x | ldMemVx x =>
    obtain ⟨hout, rfl, rfl⟩ := fault_if_eq_some.mp h
    exact access_outside (base := s.i.toNat) (n := x.toNat + 1) _ _ _ (by omega) (by omega)
  | ldB x =>
    obtain ⟨hout, rfl, rfl⟩ := fault_if_eq_some.mp h
    exact access_outside (base := s.i.toNat) (n := 3) _ _ _ (by omega) (by omega)
  | _ => cases h

/-- Where the table gives no fault an instruction completes. -/
theorem exec_of_faultOf_none {i : Instr} {s : State} (h : faultOf i s = none) :
    ∃ t, exec i s = .next t ∧ Completes s i t := by
  cases i with
  | cls => exact ⟨_, rfl, .clear⟩
  | ret =>
    have hsp : s.sp ≠ 0 := fun e => fault_if_eq_none.mp h (congrArg Fin.val e)
    obtain ⟨k, hk⟩ := Fin.exists_succ_eq.mpr hsp
    exact ⟨_, by simp only [exec, execRet, pop_of_sp hk.symm], .ret k hk.symm⟩
  | call nnn =>
    have hsp : s.sp ≠ Fin.last 16 := fun e => fault_if_eq_none.mp h (congrArg Fin.val e)
    obtain ⟨k, hk⟩ := Fin.exists_castSucc_eq.mpr hsp
    exact ⟨_, by simp only [exec, execCall, push_of_sp s.pc hk.symm], .call nnn k hk.symm⟩
  | jp nnn => exact ⟨_, rfl, .jump _ (Nat.le_trans (absAddr_le nnn) (by decide))⟩
  | jpV0 nnn => exact ⟨_, rfl, .jump _ (offsetTarget_le s nnn)⟩
  | seImm | sneImm | seReg | sneReg | skp | sknp => exact ⟨_, rfl, .skip _⟩
  | ldImm | addImm | ldReg | orReg | andReg | xorReg | ldVxDt =>
    exact ⟨_, rfl, ((WritesRegs.refl _ s).setReg).completes⟩
  | addReg | subReg | subnReg | shr | shl =>
    exact ⟨_, rfl, (((WritesRegs.refl _ s).setReg).setReg).completes⟩
  | ldStVx => exact ⟨_, rfl, (WritesRegs.refl _ s).completes⟩
  | ldVxK x =>
    by_cases hk : keysEmpty s.keys
    · exact ⟨_, if_pos hk, .rewind⟩
    · exact ⟨_, if_neg hk, ((WritesRegs.refl _ s).setReg).completes⟩
  | rnd x kk => exact ⟨_, rfl, .random x kk _⟩
  | ldDtVx x => exact ⟨_, rfl, .timer x⟩
  | ldI | ldF => exact ⟨_, rfl, .index rfl _⟩
  | addI x =>
    have hsum : ¬ s.indexSum x > 0xFFFF := fault_if_eq_none.mp h
    exact ⟨_, if_neg hsum, .index rfl _⟩
  | drw x y n =>
    have hin : s.i.toNat + n.toNat ≤ 4096 ∨ n.toNat = 0 := by
      have hout := fault_if_eq_none.mp h
      bv_omega
    exact ⟨_, access_inside (base := s.i.toNat) _ _ _ hin, .draw x y n _ _⟩
  | ldVxMem x =>
    have hin : s.i.toNat + (x.toNat + 1) ≤ 4096 := by
      have hout := fault_if_eq_none.mp h
      omega
    exact ⟨_, access_inside (base := s.i.toNat) (n := x.toNat + 1) _ _ _ (.inl hin),
      (writesRegs_setRegs x s _ (readBytes_length ..)).completes⟩
  | ldMemVx x =>
    have hin : s.i.toNat + (x.toNat + 1) ≤ 4096 := by
      have hout := fault_if_eq_none.mp h
      omega
    have hlen : (s.regsFrom 0 (regCount x)).length = x.toNat + 1 := regsFrom_length ..
    exact ⟨_, access_inside (base := s.i.toNat) (n := x.toNat + 1) _ _ _ (.inl hin), .store _ hlen (hlen ▸ hin)⟩
  | ldB x =>
    have hin : s.i.toNat + 3 ≤ 4096 := by
      have hout := fault_if_eq_none.mp h
      omega
    exact ⟨_, access_inside (base := s.i.toNat) (n := 3) _ _ _ (.inl hin), .store _ (bcdDigits_length _) hin⟩

/-- Everything an instruction can do: the fault of the table, or its completion. -/
theorem exec_cases {i : Instr} {s t : State} (h : exec i s = .next t) :
    (∃ c a, faultOf i s = some (c, a) ∧ t = s.raise c a) ∨ (faultOf i s = none ∧ Completes s i t) := by
  cases hf : faultOf i s with
  | some f =>
    rw [exec_of_faultOf_some hf, Host.Outcome.next.injEq] at h
    exact .inl ⟨f.1, f.2, rfl, h.symm⟩
  | none =>
    obtain ⟨u, hu, hc⟩ := exec_of_faultOf_none hf
    rw [hu, Host.Outcome.next.injEq] at h
    exact .inr ⟨rfl, h ▸ hc⟩

/-! ### Frames of 10_state.md -/

/-- Settles O42: a fault writes no register, and a completed instruction only those of its own part of the state. -/
theorem registersChangeOnlyWhereWritten : Obligations.RegistersChangeOnlyWhereWritten := by
  intro i s t r h hr
  obtain ⟨c, a, -, rfl⟩ | ⟨-, hc⟩ := exec_cases h
  · exact raise_reg ..
  cases hc with
  | regs v hv => exact hv.2 r hr
  | skip q => exact skipIf_reg ..
  | random x kk b =>
    have hne : r ≠ x := by simpa [mayWriteReg] using hr
    rw [reg_setReg, if_neg hne, countDraw_reg]
  | draw x y n d b =>
    have hne : r ≠ vf := by simpa [mayWriteReg, vf] using hr
    rw [reg_setReg, if_neg hne]
    rfl
  | _ => rfl

/-- Settles O43: each of I, DT and the draw counter is written by the completions of the named instructions alone. -/
theorem indexTimerAndKeysFrame : Obligations.IndexTimerAndKeysFrame := by
  intro i s t h
  obtain ⟨c, a, -, rfl⟩ | ⟨-, hc⟩ := exec_cases h
  · simp
  cases hc with
  | index hi a => simp [hi]
  | _ => simp

/-- Settles O44: only the completions of CALL and RET write SP, and only that of CALL an entry, the one at SP. -/
theorem stackChangesOnlyInCallAndReturn : Obligations.StackChangesOnlyInCallAndReturn := by
  intro i s t h
  obtain ⟨c, a, -, rfl⟩ | ⟨-, hc⟩ := exec_cases h
  · simp
  cases hc with
  | call nnn k hk =>
    refine ⟨by simp, by simp, fun j hj => ?_⟩
    have hne : k.val ≠ j.val := by simpa [hk] using hj.symm
    exact Vector.getElem_set_ne k.isLt j.isLt hne
  | _ => simp

theorem Completes.fault_eq {i : Instr} {s t : State} (h : Completes s i t) : t.fault = s.fault := by
  cases h with
  | skip q => exact skipIf_fault ..
  | _ => rfl

/-- Settles O45: the display is written by the completions of CLS and DRW, and FAULT by a fault of the table alone. -/
theorem displayAndFaultFrame : Obligations.DisplayAndFaultFrame := by
  intro i s t h
  obtain ⟨c, a, hf, rfl⟩ | ⟨-, hc⟩ := exec_cases h
  · simp [hf]
  refine ⟨fun hi => ?_, fun _ => hc.fault_eq⟩
  cases hc with
  | clear => exact absurd rfl hi.1
  | draw x y n d b => exact absurd rfl (hi.2 x y n)
  | skip q => exact skipIf_disp ..
  | _ => rfl

/-! ### What a step can do -/

/-- The state an instruction runs on: aged once, PC advanced past the fetched word (30_encoding.md R46, R47). -/
def State.fetched (s : State) : State := { ageTimer s with pc := s.pc + 2 }

@[simp] theorem fetched_pc (s : State) : s.fetched.pc = s.pc + 2 := rfl
@[simp] theorem fetched_sp (s : State) : s.fetched.sp = s.sp := ageTimer_sp s
@[simp] theorem fetched_stack (s : State) : s.fetched.stack = s.stack := ageTimer_stack s
@[simp] theorem fetched_mem (s : State) : s.fetched.mem = s.mem := ageTimer_mem s
@[simp] theorem fetched_fault (s : State) : s.fetched.fault = s.fault := ageTimer_fault s

/-- Everything a step can do: nothing while halted (60_exceptions.md R97), a fetch fault, a no-op (30_encoding.md R45),
or an instruction. -/
theorem step_cases {s t : State} (h : step s = .next t) :
    (s.fault ≠ none ∧ t = s) ∨
    (s.fault = none ∧ 4096 < s.pc.toNat + 2 ∧ t = (ageTimer s).enterFault s.pc .fetchOob (max s.pc.toNat 4096)) ∨
    (s.fault = none ∧ s.pc.toNat + 2 ≤ 4096 ∧ (t = s.fetched ∨ ∃ i, exec i s.fetched = .next t)) := by
  cases hf : s.fault with
  | some r =>
    simp only [step, tick, hf, Host.Outcome.next.injEq] at h
    exact .inl ⟨nofun, h.symm⟩
  | none =>
    simp only [step, tick, hf] at h
    obtain ⟨hpc, he⟩ | ⟨hpc, -, he⟩ | ⟨i, hpc, -, he⟩ := executeOne_cases (ageTimer s) <;>
      rw [he] at h <;> simp only [ageTimer_pc] at hpc h
    · exact .inr (.inl ⟨rfl, hpc, (Host.Outcome.next.inj h).symm⟩)
    · exact .inr (.inr ⟨rfl, hpc, .inl (Host.Outcome.next.inj h).symm⟩)
    · exact .inr (.inr ⟨rfl, hpc, .inr ⟨i, h⟩⟩)

/-! ### PC and the return addresses stay bounded (10_state.md R12) -/

/-- A state with the stack of a bounded one is bounded when its PC is. -/
theorem State.pcBounded.of_same_stack {s t : State} (hs : s.pcBounded) (hsp : t.sp = s.sp)
    (hstack : t.stack = s.stack) (hpc : t.pc.toNat ≤ 0x10FE) : t.pcBounded :=
  ⟨hpc, fun k hk => hstack ▸ hs.2 k (hsp ▸ hk)⟩

theorem fetched_pcBounded {s : State} (hs : s.pcBounded) (hpc : s.pc.toNat + 2 ≤ 4096) : s.fetched.pcBounded := by
  refine hs.of_same_stack (fetched_sp s) (fetched_stack s) ?_
  rw [fetched_pc, pc_add_two s hpc]
  omega

/-- Popping keeps the bound: PC becomes an entry that was occupied. -/
theorem ret_pcBounded {s : State} {k : Fin 16} (hs : s.pcBounded) (hk : s.sp = k.succ) :
    (({ s with sp := k.castSucc } : State).jump s.stack[k.val]).pcBounded := by
  have hsp : s.sp.val = k.val + 1 := by simp [hk]
  refine ⟨Nat.le_trans (hs.2 k (by omega)) (by decide), fun j hj => hs.2 j ?_⟩
  have hjk : j.val < k.val := hj
  omega

/-- Pushing keeps the bound when PC, the address pushed, is at most 4096. -/
theorem call_pcBounded {s : State} {k : Fin 16} (nnn : Addr12) (hs : s.pcBounded) (hk : s.sp = k.castSucc)
    (hpc : s.pc.toNat ≤ 4096) :
    (({ s with stack := s.stack.set k.val s.pc k.isLt, sp := k.succ } : State).jump (absAddr nnn)).pcBounded := by
  refine ⟨Nat.le_trans (absAddr_le nnn) (by decide), fun j hj => ?_⟩
  have hsp : s.sp.val = k.val := by simp [hk]
  have hjk : j.val < k.val + 1 := hj
  by_cases hj' : k.val = j.val
  · simpa [hj'] using hpc
  · simpa [Vector.getElem_set, hj'] using hs.2 j (by omega)

/-- A PC of at least 2 goes back by 2 without a wrap. -/
theorem pc_sub_two {s : State} (h : 2 ≤ s.pc.toNat) : (s.pc - 2).toNat = s.pc.toNat - 2 := by bv_omega

/-- An instruction that runs after a fetch, so with PC from 2 to 4096, keeps the bound. -/
theorem exec_pcBounded {i : Instr} {s t : State} (hs : s.pcBounded) (hlo : 2 ≤ s.pc.toNat) (hhi : s.pc.toNat ≤ 4096)
    (h : exec i s = .next t) : t.pcBounded := by
  have hback : (s.pc - 2).toNat ≤ 0x10FE := by rw [pc_sub_two hlo]; omega
  obtain ⟨c, a, -, rfl⟩ | ⟨-, hc⟩ := exec_cases h
  · exact hs.of_same_stack rfl rfl hback
  cases hc with
  | skip q =>
    refine hs.of_same_stack (skipIf_sp ..) (skipIf_stack ..) ?_
    rw [skipIf_pc]
    split <;> bv_omega
  | jump a ha => exact hs.of_same_stack rfl rfl ha
  | rewind => exact hs.of_same_stack rfl rfl hback
  | ret k hk => exact ret_pcBounded hs hk
  | call nnn k hk => exact call_pcBounded nnn hs hk hhi
  | _ => exact hs

/-- Settles O49: the fetch leaves PC from 2 to 4096, from where no instruction takes it beyond 0x10FE. -/
theorem everyStepKeepsPcBounded : Obligations.EveryStepKeepsPcBounded := by
  intro s t hs h
  obtain ⟨-, rfl⟩ | ⟨-, -, rfl⟩ | ⟨-, hpc, rfl | ⟨i, hi⟩⟩ := step_cases h
  · exact hs
  · exact hs.of_same_stack (ageTimer_sp s) (ageTimer_stack s) hs.1
  · exact fetched_pcBounded hs hpc
  · have hnext : s.fetched.pc.toNat = s.pc.toNat + 2 := pc_add_two s hpc
    exact exec_pcBounded (fetched_pcBounded hs hpc) (by omega) (by omega) hi

/-! ### Memory stays canonical (the model's own form, log 5) -/

theorem exec_mem_wf {i : Instr} {s t : State} (hs : s.mem.wf = true) (h : exec i s = .next t) : t.mem.wf = true := by
  obtain ⟨c, a, -, rfl⟩ | ⟨-, hc⟩ := exec_cases h
  · exact hs
  cases hc with
  | skip q => rwa [skipIf_mem]
  | store bs hlen hin => exact wf_writeBytes hs hin
  | _ => exact hs

theorem step_mem_wf {s t : State} (hs : s.mem.wf = true) (h : step s = .next t) : t.mem.wf = true := by
  obtain ⟨-, rfl⟩ | ⟨-, -, rfl⟩ | ⟨-, -, rfl | ⟨i, hi⟩⟩ := step_cases h
  · exact hs
  · simpa using hs
  · simpa using hs
  · exact exec_mem_wf (by simpa using hs) hi

/-! ### FAULT stays precise (60_exceptions.md R93, R96) -/

theorem faultPrecise_of_none {s : State} (h : s.fault = none) : s.faultPrecise := by
  intro r hr
  simp [h] at hr

/-- Fault entry is precise when the cause's condition holds of the state it leaves. -/
theorem enterFault_faultPrecise {s : State} {p : Addr} {c : Cause} {a : Nat}
    (h : faultCondition (s.enterFault p c a) a c) : (s.enterFault p c a).faultPrecise := by
  rintro r ⟨⟩
  exact ⟨rfl, h⟩

/-- A fault of the table meets its cause's condition: fault entry keeps I, SP and the registers, and an access is of at
most 16 bytes. -/
theorem faultCondition_of_faultOf {i : Instr} {s : State} {c : Cause} {a : Nat} (h : faultOf i s = some (c, a)) :
    faultCondition (s.raise c a) a c := by
  cases i with
  | ret | call nnn =>
    obtain ⟨hsp, rfl, rfl⟩ := fault_if_eq_some.mp h
    exact ⟨hsp, rfl⟩
  | addI x =>
    obtain ⟨hsum, rfl, rfl⟩ := fault_if_eq_some.mp h
    exact ⟨hsum, x, rfl⟩
  | drw x y n =>
    obtain ⟨⟨-, hout⟩, rfl, rfl⟩ := fault_if_eq_some.mp h
    have hn := n.isLt
    exact ⟨by rw [raise_i]; omega, rfl⟩
  | ldVxMem x | ldMemVx x | ldB x =>
    obtain ⟨hout, rfl, rfl⟩ := fault_if_eq_some.mp h
    have hx := x.isLt
    exact ⟨by rw [raise_i]; omega, rfl⟩
  | _ => cases h

/-- An instruction that begins without a fault leaves FAULT precise. -/
theorem exec_faultPrecise {i : Instr} {s t : State} (hs : s.fault = none) (h : exec i s = .next t) :
    t.faultPrecise := by
  obtain ⟨c, a, hf, rfl⟩ | ⟨-, hc⟩ := exec_cases h
  · exact enterFault_faultPrecise (faultCondition_of_faultOf hf)
  · exact faultPrecise_of_none (hc.fault_eq.trans hs)

theorem step_faultPrecise {s t : State} (hs : s.faultPrecise) (h : step s = .next t) : t.faultPrecise := by
  obtain ⟨-, rfl⟩ | ⟨-, hpc, rfl⟩ | ⟨hf, -, rfl | ⟨i, hi⟩⟩ := step_cases h
  · exact hs
  · exact enterFault_faultPrecise ⟨hpc, rfl⟩
  · exact faultPrecise_of_none (by rw [fetched_fault, hf])
  · exact exec_faultPrecise (by rw [fetched_fault, hf]) hi

/-! ### The invariant -/

/-- Settles O48: each of the invariant's three clauses is kept by itself. -/
theorem everyStepKeepsTheInvariant : Obligations.EveryStepKeepsTheInvariant := by
  rintro s t ⟨hmem, hpc, hfault⟩ h
  exact ⟨step_mem_wf hmem h, everyStepKeepsPcBounded s t hpc h, step_faultPrecise hfault h⟩

/-- Settles O47: reset lists no memory cell, occupies no stack entry and holds no fault. -/
theorem invariantHoldsAtReset : Obligations.InvariantHoldsAtReset :=
  ⟨rfl, ⟨by decide, nofun⟩, faultPrecise_of_none rfl⟩

end Sys2Proof.Machine

/-! ### Frame of memory (20_memory.md R32, R34) -/

namespace Sys2Proof.Machine

/-- Writing bytes within memory leaves every address below and above them as it was. -/
theorem read_writeBytes_outside {m : Memory} {a a' : Nat} {bs : List Byte} (hm : m.wf = true)
    (hin : a + bs.length ≤ 4096) (hout : a' < a ∨ a + bs.length ≤ a') : (m.writeBytes a bs).read a' = m.read a' := by
  rw [read_writeBytes hm hin, dif_neg (by omega)]

/-- Everything an instruction can do to memory: nothing, or a store of its bytes at I, all of them within memory. -/
theorem exec_mem_cases {i : Instr} {s t : State} (h : exec i s = .next t) :
    t.mem = s.mem ∨ ∃ bs : List Byte, bs.length = storedBytes i ∧ s.i.toNat + bs.length ≤ 4096 ∧
      t.mem = s.mem.writeBytes s.i.toNat bs := by
  obtain ⟨c, a, -, rfl⟩ | ⟨-, hc⟩ := exec_cases h
  · exact .inl (raise_mem ..)
  cases hc with
  | store bs hlen hin => exact .inr ⟨bs, hlen, hin, rfl⟩
  | skip q => exact .inl (skipIf_mem ..)
  | _ => exact .inl rfl

/-- Settles O46: memory is as before or holds one store at I, which is empty where the instruction stores nothing. -/
theorem memoryChangesOnlyAtStoredBytes : Obligations.MemoryChangesOnlyAtStoredBytes := by
  intro i s t h
  obtain hsame | ⟨bs, hlen, hin, hstore⟩ := exec_mem_cases h
  · exact ⟨fun _ => hsame, fun _ a _ => by rw [hsame]⟩
  · refine ⟨fun hzero => ?_, fun hm a hout => ?_⟩
    · have hnil : bs = [] := List.eq_nil_of_length_eq_zero (hlen.trans hzero)
      rw [hstore, hnil, Memory.writeBytes]
    · rw [hstore, read_writeBytes_outside hm hin (hlen ▸ hout)]

end Sys2Proof.Machine

/-! ### What a row's mask fixes of a word (30_encoding.md R42, R43) -/

namespace Sys2Proof

/-- The first nibble of a word, which every row of the opcode map fixes. -/
def classNibble (op : Word) : Nibble := op.extractLsb' 12 4

theorem append_eq_append_iff {w v : Nat} {a a' : BitVec w} {b b' : BitVec v} :
    a ++ b = a' ++ b' ↔ a = a' ∧ b = b' := by
  refine ⟨fun h => ⟨?_, ?_⟩, fun ⟨ha, hb⟩ => by rw [ha, hb]⟩
  · simpa only [BitVec.extractLsb'_append_eq_left] using congrArg (BitVec.extractLsb' v w) h
  · simpa only [BitVec.extractLsb'_append_eq_right] using congrArg (BitVec.extractLsb' 0 v) h

/-- The mask of formats `A` and `XK`, and of DRW, keeps the class nibble. -/
theorem and_class (op : Word) : op &&& 0xF000#16 = classNibble op ++ 0#12 := by
  simpa only [classNibble, formatA_fields] using Laws.formatA_class (classNibble op) (fieldNNN op)

/-- The mask of format `X` keeps the class nibble and the low byte. -/
theorem and_class_byte (op : Word) : op &&& 0xF0FF#16 = classNibble op ++ 0#4 ++ fieldKK op := by
  simpa only [classNibble, formatXK_fields] using Laws.formatXK_low (classNibble op) (fieldX op) (fieldKK op)

/-- The mask of format `XY` keeps the class nibble and the low nibble. -/
theorem and_class_nibble (op : Word) : op &&& 0xF00F#16 = classNibble op ++ 0#4 ++ 0#4 ++ fieldN op := by
  simpa only [classNibble, formatXYN_fields] using
    Laws.formatXYN_low (classNibble op) (fieldX op) (fieldY op) (fieldN op)

theorem and_class_eq_iff (op : Word) (h : Nibble) : op &&& 0xF000#16 = h ++ 0#12 ↔ classNibble op = h := by
  rw [and_class, BitVec.append_left_inj]

theorem and_class_byte_eq_iff (op : Word) (h : Nibble) (kk : Byte) :
    op &&& 0xF0FF#16 = h ++ 0#4 ++ kk ↔ classNibble op = h ∧ fieldKK op = kk := by
  rw [and_class_byte, append_eq_append_iff, BitVec.append_left_inj]

theorem and_class_nibble_eq_iff (op : Word) (h n : Nibble) :
    op &&& 0xF00F#16 = h ++ 0#4 ++ 0#4 ++ n ↔ classNibble op = h ∧ fieldN op = n := by
  rw [and_class_nibble, append_eq_append_iff, BitVec.append_left_inj, BitVec.append_left_inj]

/-! ### Decoding an encoding -/

section
variable {strict : Bool} {h : Nibble}

/-- A word that agrees with a row on the row's mask decodes to what the row builds from it. -/
theorem decodeWith_of_masked {mask pattern op : Word} {build : Word → Instr}
    (hr : ⟨mask, pattern, build⟩ ∈ opRows strict) (hm : op &&& mask = pattern) :
    decodeWith strict op = .instr (build op) :=
  decodeWith_of_row hr (beq_iff_eq.mpr hm)

theorem decodeWith_fixed {i : Instr} (hr : ⟨0xFFFF, encode i, fun _ => i⟩ ∈ opRows strict) :
    decodeWith strict (encode i) = .instr i :=
  decodeWith_of_masked hr BitVec.and_allOnes

theorem decodeWith_formatA {f : Addr12 → Instr} (nnn : Addr12)
    (hr : ⟨0xF000, h ++ 0#12, fun op => f (fieldNNN op)⟩ ∈ opRows strict) :
    decodeWith strict (formatA h nnn) = .instr (f nnn) := by
  rw [decodeWith_of_masked hr (Laws.formatA_class h nnn), fieldNNN_formatA]

theorem decodeWith_formatXK {f : Reg → Byte → Instr} (x : Reg) (kk : Byte)
    (hr : ⟨0xF000, h ++ 0#4 ++ 0#8, fun op => f (fieldX op) (fieldKK op)⟩ ∈ opRows strict) :
    decodeWith strict (formatXK h x kk) = .instr (f x kk) := by
  rw [decodeWith_of_masked hr (Laws.formatXK_class h x kk), fieldX_formatXK, fieldKK_formatXK]

/-- Format `X` is laid out as `XK` with the row's own low byte. -/
theorem decodeWith_formatX {f : Reg → Instr} (x : Reg) {kk : Byte}
    (hr : ⟨0xF0FF, h ++ 0#4 ++ kk, fun op => f (fieldX op)⟩ ∈ opRows strict) :
    decodeWith strict (formatXK h x kk) = .instr (f x) := by
  rw [decodeWith_of_masked hr (Laws.formatXK_low h x kk), fieldX_formatXK]

/-- Format `XY` is laid out as `XYN` with the row's own low nibble. -/
theorem decodeWith_formatXY {f : Reg → Reg → Instr} (x y : Reg) {n : Nibble}
    (hr : ⟨0xF00F, h ++ 0#4 ++ 0#4 ++ n, fun op => f (fieldX op) (fieldY op)⟩ ∈ opRows strict) :
    decodeWith strict (formatXYN h x y n) = .instr (f x y) := by
  rw [decodeWith_of_masked hr (Laws.formatXYN_low h x y n), fieldX_formatXYN, fieldY_formatXYN]

theorem decodeWith_formatXYN {f : Reg → Reg → Nibble → Instr} (x y : Reg) (n : Nibble)
    (hr : ⟨0xF000, h ++ 0#4 ++ 0#4 ++ 0#4, fun op => f (fieldX op) (fieldY op) (fieldN op)⟩ ∈ opRows strict) :
    decodeWith strict (formatXYN h x y n) = .instr (f x y n) := by
  rw [decodeWith_of_masked hr (Laws.formatXYN_class h x y n), fieldX_formatXYN, fieldY_formatXYN, fieldN_formatXYN]

end

/-- The opcode map by its four groups of rows. -/
@[simp] theorem mem_opRows {strict : Bool} {r : OpRow} :
    r ∈ opRows strict ↔ r ∈ opRowsLow strict ∨ r ∈ opRowsAlu ∨ r ∈ opRowsMid strict ∨ r ∈ opRowsHigh := by
  simp [opRows]

/-- Under `SKIP_REG_STRICT` false the two register skips accept any low nibble (R44). -/
theorem decodeWith_lenient_skips (x y : Reg) (n : Nibble) :
    decodeWith false (formatXYN 0x5 x y n) = .instr (.seReg x y) ∧
    decodeWith false (formatXYN 0x9 x y n) = .instr (.sneReg x y) := by
  constructor
  · exact decodeWith_formatXYN (f := fun x y _ => .seReg x y) x y n (by simp [opRowsLow])
  · exact decodeWith_formatXYN (f := fun x y _ => .sneReg x y) x y n (by simp [opRowsMid])

/-- By the format of the instruction, whose row the map holds under either setting; each of the two register skips has
a row of another mask under each. -/
theorem decodeWith_encode (strict : Bool) (i : Instr) : decodeWith strict (encode i) = .instr i := by
  cases i with
  | cls | ret => exact decodeWith_fixed (by simp [opRowsLow, encode])
  | jp nnn | call nnn => exact decodeWith_formatA nnn (by simp [opRowsLow])
  | ldI nnn | jpV0 nnn => exact decodeWith_formatA nnn (by simp [opRowsMid])
  | seImm x kk | sneImm x kk | ldImm x kk | addImm x kk => exact decodeWith_formatXK x kk (by simp [opRowsLow])
  | rnd x kk => exact decodeWith_formatXK x kk (by simp [opRowsMid])
  | seReg x y =>
    cases strict with
    | true => exact decodeWith_formatXY x y (by simp [opRowsLow])
    | false => exact (decodeWith_lenient_skips x y 0).1
  | sneReg x y =>
    cases strict with
    | true => exact decodeWith_formatXY x y (by simp [opRowsMid])
    | false => exact (decodeWith_lenient_skips x y 0).2
  | ldReg x y | orReg x y | andReg x y | xorReg x y | addReg x y | subReg x y | shr x y | subnReg x y | shl x y =>
    exact decodeWith_formatXY x y (by simp [opRowsAlu])
  | drw x y n => exact decodeWith_formatXYN x y n (by simp [opRowsMid])
  | skp x | sknp x => exact decodeWith_formatX x (by simp [opRowsMid])
  | ldVxDt x | ldVxK x | ldDtVx x | ldStVx x | addI x | ldF x | ldB x | ldMemVx x | ldVxMem x =>
    exact decodeWith_formatX x (by simp [opRowsHigh])

/-- Settles O1: every instruction's encoding has the row of its format, whose fields are read back. -/
theorem decodeOfEncodeIsTheInstruction : Obligations.DecodeOfEncodeIsTheInstruction :=
  fun strict i _ => decodeWith_encode strict i

/-! ### Encoding a decoded word -/

/-- What a row builds from a word it recognises is encoded as that word. -/
def EncodesBack (r : OpRow) : Prop := ∀ op : Word, op &&& r.mask = r.pattern → encode (r.build op) = op

theorem encodesBack_fixed {i : Instr} {pattern : Word} (hi : encode i = pattern) :
    EncodesBack ⟨0xFFFF, pattern, fun _ => i⟩ := by
  intro op hm
  have hop : op &&& 0xFFFF#16 = op := BitVec.and_allOnes
  exact hi.trans (hm.symm.trans hop)

theorem encodesBack_formatA {f : Addr12 → Instr} {h : Nibble} {pattern : Word}
    (hf : ∀ nnn, encode (f nnn) = formatA h nnn) (hp : pattern = h ++ 0#12) :
    EncodesBack ⟨0xF000, pattern, fun op => f (fieldNNN op)⟩ := by
  intro op hm
  obtain rfl := (and_class_eq_iff op h).mp (hm.trans hp)
  exact (hf _).trans (formatA_fields op)

theorem encodesBack_formatXK {f : Reg → Byte → Instr} {h : Nibble} {pattern : Word}
    (hf : ∀ x kk, encode (f x kk) = formatXK h x kk) (hp : pattern = h ++ 0#12) :
    EncodesBack ⟨0xF000, pattern, fun op => f (fieldX op) (fieldKK op)⟩ := by
  intro op hm
  obtain rfl := (and_class_eq_iff op h).mp (hm.trans hp)
  exact (hf ..).trans (formatXK_fields op)

theorem encodesBack_formatXYN {f : Reg → Reg → Nibble → Instr} {h : Nibble} {pattern : Word}
    (hf : ∀ x y n, encode (f x y n) = formatXYN h x y n) (hp : pattern = h ++ 0#12) :
    EncodesBack ⟨0xF000, pattern, fun op => f (fieldX op) (fieldY op) (fieldN op)⟩ := by
  intro op hm
  obtain rfl := (and_class_eq_iff op h).mp (hm.trans hp)
  exact (hf ..).trans (formatXYN_fields op)

theorem encodesBack_formatX {f : Reg → Instr} {h : Nibble} {kk : Byte} {pattern : Word}
    (hf : ∀ x, encode (f x) = formatXK h x kk) (hp : pattern = h ++ 0#4 ++ kk) :
    EncodesBack ⟨0xF0FF, pattern, fun op => f (fieldX op)⟩ := by
  intro op hm
  obtain ⟨rfl, rfl⟩ := (and_class_byte_eq_iff op h kk).mp (hm.trans hp)
  exact (hf _).trans (formatXK_fields op)

theorem encodesBack_formatXY {f : Reg → Reg → Instr} {h n : Nibble} {pattern : Word}
    (hf : ∀ x y, encode (f x y) = formatXYN h x y n) (hp : pattern = h ++ 0#4 ++ 0#4 ++ n) :
    EncodesBack ⟨0xF00F, pattern, fun op => f (fieldX op) (fieldY op)⟩ := by
  intro op hm
  obtain ⟨rfl, rfl⟩ := (and_class_nibble_eq_iff op h n).mp (hm.trans hp)
  exact (hf ..).trans (formatXYN_fields op)

/-- Every row of the map, by its format. -/
theorem opRows_encodesBack : ∀ r ∈ opRows true, EncodesBack r := by
  intro r hr
  rcases mem_opRows.mp hr with hr | hr | hr | hr
  · simp only [opRowsLow, List.mem_cons, List.not_mem_nil, or_false] at hr
    obtain rfl | rfl | rfl | rfl | rfl | rfl | rfl | rfl | rfl := hr
    · exact encodesBack_fixed rfl
    · exact encodesBack_fixed rfl
    · exact encodesBack_formatA (fun _ => rfl) rfl
    · exact encodesBack_formatA (fun _ => rfl) rfl
    · exact encodesBack_formatXK (fun _ _ => rfl) rfl
    · exact encodesBack_formatXK (fun _ _ => rfl) rfl
    · exact encodesBack_formatXY (fun _ _ => rfl) rfl
    · exact encodesBack_formatXK (fun _ _ => rfl) rfl
    · exact encodesBack_formatXK (fun _ _ => rfl) rfl
  · fin_cases hr <;> exact encodesBack_formatXY (fun _ _ => rfl) rfl
  · simp only [opRowsMid, List.mem_cons, List.not_mem_nil, or_false] at hr
    obtain rfl | rfl | rfl | rfl | rfl | rfl | rfl := hr
    · exact encodesBack_formatXY (fun _ _ => rfl) rfl
    · exact encodesBack_formatA (fun _ => rfl) rfl
    · exact encodesBack_formatA (fun _ => rfl) rfl
    · exact encodesBack_formatXK (fun _ _ => rfl) rfl
    · exact encodesBack_formatXYN (fun _ _ _ => rfl) rfl
    · exact encodesBack_formatX (fun _ => rfl) rfl
    · exact encodesBack_formatX (fun _ => rfl) rfl
  · fin_cases hr <;> exact encodesBack_formatX (fun _ => rfl) rfl

/-- Settles O2: a word decodes only through a row that recognises it, and every row encodes back. -/
theorem encodeOfDecodeIsTheWord : Obligations.EncodeOfDecodeIsTheWord := by
  intro op i hi
  obtain ⟨r, hr, hm, hd⟩ | ⟨-, hd⟩ := decodeWith_cases true op
  · obtain rfl : i = r.build op := Decoded.instr.inj (hi.symm.trans hd)
    exact opRows_encodesBack r hr op (beq_iff_eq.mp hm)
  · exact absurd (hi.symm.trans hd) nofun

/-! ### At most one row -/

/-- Rows that are pairwise apart and all recognise one word are at most one. -/
theorem length_le_one_of_apart {rows : List OpRow} {op : Word}
    (hp : rows.Pairwise fun r r' => rowsApart r r' = true) (hm : ∀ r ∈ rows, rowMatches r op = true) :
    rows.length ≤ 1 := by
  match rows with
  | [] => exact Nat.zero_le 1
  | [_] => exact Nat.le_refl 1
  | r :: r' :: _ =>
    have hapart : rowsApart r r' = true := List.rel_of_pairwise_cons hp (by simp)
    have hno := not_both_match hapart (hm r (by simp))
    rw [hm r' (by simp)] at hno
    cases hno

/-- Settles O3: the rows that recognise the word are pairwise apart, as all rows are. -/
theorem atMostOneRowMatchesAWord : Obligations.AtMostOneRowMatchesAWord := fun strict _ =>
  length_le_one_of_apart ((opRows_pairwise strict).filter _) fun _ hr => (List.mem_filter.mp hr).2

/-! ### Unrecognised words (30_encoding.md R44, R45) -/

/-- Decoding is the no-op exactly where no row agrees with the word on its mask. -/
theorem decodeWith_eq_nop_iff {strict : Bool} {op : Word} :
    decodeWith strict op = .nop ↔ ∀ r ∈ opRows strict, op &&& r.mask ≠ r.pattern := by
  constructor
  · intro hd r hr hm
    exact absurd (hd.symm.trans (decodeWith_of_masked hr hm)) nofun
  · intro hno
    obtain ⟨r, hr, hm, -⟩ | ⟨-, hd⟩ := decodeWith_cases strict op
    · exact absurd (beq_iff_eq.mp hm) (hno r hr)
    · exact hd

theorem toNat_append_eq_add {w v : Nat} (a : BitVec w) (b : BitVec v) :
    (a ++ b).toNat = a.toNat * 2 ^ v + b.toNat := by
  rw [BitVec.toNat_append, ← Nat.shiftLeft_add_eq_or_of_lt b.isLt, Nat.shiftLeft_eq]

theorem formatXYN_toNat (h : Nibble) (x y : Reg) (n : Nibble) :
    (formatXYN h x y n).toNat = h.toNat * 4096 + x.toNat * 256 + y.toNat * 16 + n.toNat := by
  have e : (formatXYN h x y n).toNat = (h ++ x ++ y ++ n).toNat := rfl
  rw [e, toNat_append_eq_add, toNat_append_eq_add, toNat_append_eq_add]
  omega

theorem classNibble_toNat (op : Word) : (classNibble op).toNat = op.toNat / 4096 := by
  rw [classNibble, BitVec.extractLsb'_toNat, Nat.shiftRight_eq_div_pow]
  omega

theorem fieldN_toNat (op : Word) : (fieldN op).toNat = op.toNat % 16 := BitVec.extractLsb'_toNat 0 4 op

theorem fieldKK_toNat (op : Word) : (fieldKK op).toNat = op.toNat % 256 := BitVec.extractLsb'_toNat 0 8 op

/-! The rows' tests in the numbers of R45: a class nibble, and within it a low nibble or a low byte. -/

theorem eq_iff_toNat (op p : Word) :
    op = p ↔ op.toNat / 4096 = p.toNat / 4096 ∧ op.toNat % 4096 = p.toNat % 4096 := by
  rw [← BitVec.toNat_inj]
  omega

theorem and_class_eq_iff_toNat (op p : Word) :
    op &&& 0xF000#16 = p ↔ op.toNat / 4096 = p.toNat / 4096 ∧ p.toNat % 4096 = 0 := by
  rw [and_class, ← BitVec.toNat_inj, toNat_append_eq_add, classNibble_toNat, BitVec.toNat_zero]
  omega

theorem and_class_byte_eq_iff_toNat (op p : Word) :
    op &&& 0xF0FF#16 = p ↔ op.toNat / 4096 = p.toNat / 4096 ∧ op.toNat % 256 = p.toNat % 4096 := by
  rw [and_class_byte, ← BitVec.toNat_inj, toNat_append_eq_add, toNat_append_eq_add, classNibble_toNat,
    fieldKK_toNat, BitVec.toNat_zero]
  omega

theorem and_class_nibble_eq_iff_toNat (op p : Word) :
    op &&& 0xF00F#16 = p ↔ op.toNat / 4096 = p.toNat / 4096 ∧ op.toNat % 16 = p.toNat % 4096 := by
  rw [and_class_nibble, ← BitVec.toNat_inj, toNat_append_eq_add, toNat_append_eq_add, toNat_append_eq_add,
    classNibble_toNat, fieldN_toNat, BitVec.toNat_zero]
  omega

/-- Settles O5: only the rows of a word's own class can recognise it, and they leave what R45 lists for the class. -/
theorem unrecognisedWordsAreTheListedClasses : Obligations.UnrecognisedWordsAreTheListedClasses := by
  intro op
  have hfull : op &&& 0xFFFF#16 = op := BitVec.and_allOnes
  have hclass : op.toNat / 4096 < 16 := Nat.div_lt_of_lt_mul op.isLt
  rw [decode, skipRegStrict, decodeWith_eq_nop_iff]
  simp only [mem_opRows, opRowsLow, opRowsAlu, opRowsMid, opRowsHigh, or_imp, forall_and, List.forall_mem_cons,
    BitVec.ofNat_eq_ofNat, ne_eq, if_true, hfull, eq_iff_toNat op, and_class_eq_iff_toNat,
    and_class_byte_eq_iff_toNat, and_class_nibble_eq_iff_toNat, BitVec.reduceToNat, Nat.reduceDiv, Nat.reduceMod]
  generalize op.toNat / 4096 = c at hclass ⊢
  interval_cases c <;> simp
  -- Class 8 is left, where the rows and R45 list complementary low nibbles.
  omega

/-- Settles O4: 5xyN and 9xyN with N not 0, and 00E1, are among the words no row recognises under the default. -/
theorem wordsMatchARowOnEveryMaskBit : Obligations.WordsMatchARowOnEveryMaskBit := by
  refine ⟨fun _ _ => decodeWith_eq_nop_iff, fun x y n hn => ?_, decodeWith_lenient_skips, rfl, ?_⟩
  · have hn0 : n.toNat ≠ 0 := fun e => hn (BitVec.eq_of_toNat_eq e)
    have hx := x.isLt
    have hy := y.isLt
    have hlow (h : Nibble) :
        (formatXYN h x y n).toNat / 4096 = h.toNat ∧ (formatXYN h x y n).toNat % 16 ≠ 0 := by
      rw [formatXYN_toNat]
      omega
    constructor
    · exact (unrecognisedWordsAreTheListedClasses _).mpr (.inr (.inl ⟨.inl (hlow 0x5).1, (hlow 0x5).2⟩))
    · exact (unrecognisedWordsAreTheListedClasses _).mpr (.inr (.inl ⟨.inr (hlow 0x9).1, (hlow 0x9).2⟩))
  · exact (unrecognisedWordsAreTheListedClasses _).mpr (.inl (by decide))

/-- Settles O6: each listed word is the encoding of its instruction, and 0123 is of class 0. -/
theorem sampleWordsDecodeAsListed : Obligations.SampleWordsDecodeAsListed := by
  have hdecode (i : Instr) : decode (encode i) = .instr i := decodeWith_encode true i
  exact ⟨hdecode .ret, hdecode (.call 0xABC), hdecode (.seImm 0xA 0x42), hdecode (.addReg 0xF 0x1),
    hdecode (.shl 0x1 0x2), hdecode (.drw 0x1 0x2 0x5), hdecode (.sknp 0x5), hdecode (.addI 0x4),
    hdecode (.ldVxMem 0xB), (unrecognisedWordsAreTheListedClasses _).mpr (.inl (by decide))⟩

end Sys2Proof

/-! ### The execution cycle (30_encoding.md R45 to R47) -/

namespace Sys2Proof.Machine

theorem wordOfBytes_toNat (hi lo : Byte) : (wordOfBytes hi lo).toNat = hi.toNat * 256 + lo.toNat :=
  toNat_append_eq_add hi lo

/-- Settles O7: by whether both bytes lie in memory. -/
theorem fetchReadsBigEndianAndAdvances : Obligations.FetchReadsBigEndianAndAdvances := by
  intro s
  constructor
  · intro hin
    exact ⟨_, _, fetch_inside s hin, wordOfBytes_toNat .., rfl, pc_add_two s hin⟩
  · intro hout
    have haddr : max s.pc.toNat 4096 = if s.pc.toNat ≥ 4096 then s.pc.toNat else s.pc.toNat + 1 := by
      split <;> omega
    rw [fetch_outside s (by omega), haddr]
    rfl

theorem fetched_eq (s : State) :
    s.fetched = { s with dt := if s.dt = 0 then 0 else s.dt - 1, pc := s.pc + 2 } := by
  rw [State.fetched, ageTimer_eq]

theorem fetch_ageTimer {s : State} (hin : s.pc.toNat + 2 ≤ 4096) :
    fetch (ageTimer s) = .ok (s.mem.wordAt s.pc.toNat, s.fetched) := by
  rw [fetch_inside (ageTimer s) (by rwa [ageTimer_pc]), State.fetched, ageTimer_mem, ageTimer_pc]

/-- A step that can fetch ages the timer, advances PC and does what the fetched word decodes to. -/
theorem step_of_decode {s : State} {d : Decoded} (hf : s.fault = none) (hin : s.pc.toNat + 1 < 4096)
    (hd : decode (s.mem.wordAt s.pc.toNat) = d) : step s = runDecoded d s.fetched := by
  simp only [step, tick, hf, executeOne, fetch_ageTimer hin, hd]

/-- Settles O8: the word decodes to an instruction, which runs on the fetched state. -/
theorem stepRunsTheDecodedInstruction : Obligations.StepRunsTheDecodedInstruction := by
  intro s i hf hin hd
  rw [step_of_decode hf hin hd, runDecoded, fetched_eq]

/-- Settles O9: the no-op leaves the fetched state as it is. -/
theorem stepOnUnrecognisedWordOnlyAdvances : Obligations.StepOnUnrecognisedWordOnlyAdvances := by
  intro s hf hin hd
  rw [step_of_decode hf hin hd, runDecoded, fetched_eq]

/-- An instruction answers a next state: the fault of the table, or its completion. -/
theorem exec_total (i : Instr) (s : State) : ∃ t, exec i s = .next t := by
  cases hf : faultOf i s with
  | some f => exact ⟨_, exec_of_faultOf_some hf⟩
  | none =>
    obtain ⟨t, ht, -⟩ := exec_of_faultOf_none hf
    exact ⟨t, ht⟩

/-- A step answers a next state: the same one while halted, else what the execution of one instruction leaves. -/
theorem step_total (s : State) : ∃ t, step s = .next t := by
  cases hf : s.fault with
  | some r => exact ⟨s, by simp only [step, tick, hf]⟩
  | none =>
    simp only [step, tick, hf]
    obtain ⟨-, he⟩ | ⟨-, -, he⟩ | ⟨i, -, -, he⟩ := executeOne_cases (ageTimer s)
    · exact ⟨_, he⟩
    · exact ⟨_, he⟩
    · exact he ▸ exec_total i _

/-- Settles O11: no step and no instruction answers anything but a next state. -/
theorem everyStepAnswersANextState : Obligations.EveryStepAnswersANextState := ⟨step_total, exec_total⟩

end Sys2Proof.Machine

/-! ### The display (40_display.md R53 to R58) -/

namespace Sys2Proof.Machine

/-! #### Where a sprite's 1 bits land -/

/-- The bit order of decision D15, as a number. -/
theorem spriteBit_iff (b : Byte) (c : Nat) : spriteBit b c = true ↔ b.toNat / 2 ^ (7 - c) % 2 = 1 := by
  rw [spriteBit, BitVec.getLsbD, Nat.testBit_eq_decide_div_mod_eq, decide_eq_true_iff]

theorem rowCovers_iff (x0 b : Byte) (qx : Fin 64) :
    rowCovers x0 b qx = true ↔ ∃ c < 8, qx.val = (x0.toNat + c) % 64 ∧ b.toNat / 2 ^ (7 - c) % 2 = 1 := by
  have hcols (c : Nat) : c ∈ [0, 1, 2, 3, 4, 5, 6, 7] ↔ c < 8 := List.mem_range (n := 8)
  have hhits (c : Nat) : columnHits x0 b qx c = true ↔
      qx.val = (x0.toNat + c) % 64 ∧ b.toNat / 2 ^ (7 - c) % 2 = 1 := by
    rw [columnHits, Bool.and_eq_true, spriteBit_iff, decide_eq_true_iff, and_comm, Fin.ext_iff]
    rfl
  simp only [rowCovers, List.any_eq_true, hcols, hhits]

/-- A sprite covers the cells on which its 1 bits land, wrapping on both axes (R54, R55). -/
theorem spriteCovers_iff {x0 y0 : Byte} {rows : List Byte} {px : Fin 64} {py : Fin 32} :
    spriteCovers x0 y0 0 rows px py ↔ ∃ r c : Nat, ∃ _ : r < rows.length, c < 8 ∧
      px.val = (x0.toNat + c) % 64 ∧ py.val = (y0.toNat + r) % 32 ∧ rows[r].toNat / 2 ^ (7 - c) % 2 = 1 := by
  have hrow (r : Nat) : py = spriteY y0 (0 + r) ↔ py.val = (y0.toNat + r) % 32 := by
    rw [Fin.ext_iff, Nat.zero_add]
    rfl
  simp only [spriteCovers, rowCovers_iff, hrow]
  constructor
  · rintro ⟨r, hr, ⟨c, hc, hx, hbit⟩, hy⟩
    exact ⟨r, c, hr, hc, hx, hy, hbit⟩
  · rintro ⟨r, c, hr, hc, hx, hy, hbit⟩
    exact ⟨r, hr, ⟨c, hc, hx, hbit⟩, hy⟩

/-- The cells DRW covers are those of the rows it reads (R58). -/
theorem spriteHits_iff {s : State} {x y : Reg} {n : Nibble} {px : Fin 64} {py : Fin 32} :
    SpriteHits s x y n px py ↔
      spriteCovers (s.reg x) (s.reg y) 0 (s.mem.readBytes s.base n.toNat) px py := by
  simp only [SpriteHits, spriteCovers_iff, readBytes_length, readBytes_getElem, State.base, exists_prop]

/-! #### `draw` (R56) -/

section
variable {d : Display} {x0 y0 : Byte} {rows : List Byte} (hlen : rows.length ≤ 15)
include hlen

theorem draw_getPixel_of_covers {px : Fin 64} {py : Fin 32} (h : spriteCovers x0 y0 0 rows px py) :
    (d.draw x0 y0 rows).1.getPixel px py = !d.getPixel px py := by
  have hpixel := (drawRows_spec x0 y0 rows 0 (by omega) (d, false)).1 px py
  rw [Bool.eq_iff_iff, Bool.not_eq_true', Display.draw, hpixel]
  simp [h]

theorem draw_getPixel_of_not_covers {px : Fin 64} {py : Fin 32} (h : ¬ spriteCovers x0 y0 0 rows px py) :
    (d.draw x0 y0 rows).1.getPixel px py = d.getPixel px py := by
  have hpixel := (drawRows_spec x0 y0 rows 0 (by omega) (d, false)).1 px py
  rw [Bool.eq_iff_iff, Display.draw, hpixel]
  simp [h]

theorem draw_collides_iff :
    (d.draw x0 y0 rows).2 = true ↔ ∃ px py, spriteCovers x0 y0 0 rows px py ∧ d.getPixel px py = true := by
  have hcollision := (drawRows_spec x0 y0 rows 0 (by omega) (d, false)).2
  simpa [Display.draw] using hcollision

end

/-- Settles O36: the hit set is what the sprite covers. -/
theorem spriteBlitTogglesCellsAndReportsCollision : Obligations.SpriteBlitTogglesCellsAndReportsCollision := by
  intro d x0 y0 rows hlen hits
  refine ⟨fun px py => ⟨fun h => ?_, fun h => ?_⟩, ?_⟩
  · exact draw_getPixel_of_covers hlen (spriteCovers_iff.mpr h)
  · exact draw_getPixel_of_not_covers hlen (mt spriteCovers_iff.mp h)
  · exact (draw_collides_iff hlen).trans (exists₂_congr fun px py => and_congr_left' spriteCovers_iff)

/-! #### DRW (R58) -/

/-- The state after DRW Vx, Vy, n whose rows lie in memory. -/
def State.afterDraw (s : State) (x y : Reg) (n : Nibble) : State :=
  ({ s with disp := (s.drawn x y n).1 } : State).setReg vf (collisionFlag (s.drawn x y n).2)

theorem exec_drw_inside {s : State} {x y : Reg} {n : Nibble} (hin : n = 0 ∨ s.i.toNat + n.toNat ≤ 4096) :
    exec (.drw x y n) s = .next (s.afterDraw x y n) := by
  have hrows : s.base + n.toNat ≤ 4096 ∨ n.toNat = 0 := hin.symm.imp_right (congrArg BitVec.toNat)
  exact access_inside s _ _ hrows

theorem eq_afterDraw_of_exec {s t : State} {x y : Reg} {n : Nibble} (hin : n = 0 ∨ s.i.toNat + n.toNat ≤ 4096)
    (h : exec (.drw x y n) s = .next t) : t = s.afterDraw x y n := by
  rwa [exec_drw_inside hin, Host.Outcome.next.injEq, eq_comm] at h

section
variable (s : State) (x y : Reg) (n : Nibble)

theorem afterDraw_reg_of_ne {r : Reg} (hr : r ≠ 15) : (s.afterDraw x y n).reg r = s.reg r :=
  (reg_setReg _ vf _ r).trans (if_neg hr)

theorem afterDraw_vf : (s.afterDraw x y n).reg 15 = bool01 (s.drawn x y n).2 :=
  (reg_setReg _ vf _ vf).trans (if_pos rfl)

theorem drawnRows_length_le : (s.mem.readBytes s.base n.toNat).length ≤ 15 := by
  rw [readBytes_length]
  exact Nat.le_of_lt_succ n.isLt

theorem drawn_collides_iff :
    (s.drawn x y n).2 = true ↔ ∃ px py, SpriteHits s x y n px py ∧ s.disp.getPixel px py = true := by
  simp only [spriteHits_iff]
  exact draw_collides_iff (drawnRows_length_le s n)

theorem afterDraw_vf_eq_one_iff :
    (s.afterDraw x y n).reg 15 = 1 ↔ ∃ px py, SpriteHits s x y n px py ∧ s.disp.getPixel px py = true := by
  rw [← drawn_collides_iff, afterDraw_vf]
  cases (s.drawn x y n).2 <;> decide

theorem afterDraw_vf_of_no_collision
    (h : ∀ px py, SpriteHits s x y n px py → s.disp.getPixel px py = false) : (s.afterDraw x y n).reg 15 = 0 := by
  have hnone : (s.drawn x y n).2 = false := by
    rw [← Bool.not_eq_true, drawn_collides_iff]
    rintro ⟨px, py, hhit, hon⟩
    exact Bool.false_ne_true ((h px py hhit).symm.trans hon)
  rw [afterDraw_vf, hnone, bool01_false]

variable {s x y n} {px : Fin 64} {py : Fin 32}

theorem afterDraw_getPixel_of_hits (h : SpriteHits s x y n px py) :
    (s.afterDraw x y n).disp.getPixel px py = !s.disp.getPixel px py :=
  draw_getPixel_of_covers (drawnRows_length_le s n) (spriteHits_iff.mp h)

theorem afterDraw_getPixel_of_not_hits (h : ¬ SpriteHits s x y n px py) :
    (s.afterDraw x y n).disp.getPixel px py = s.disp.getPixel px py :=
  draw_getPixel_of_not_covers (drawnRows_length_le s n) (mt spriteHits_iff.mpr h)

end

/-- Settles O37: by whether the rows lie in memory. -/
theorem drawTogglesTheSpriteCells : Obligations.DrawTogglesTheSpriteCells := by
  intro x y n
  refine ⟨decodeWith_encode true (.drw x y n), fun s => ⟨fun hout => ?_, fun hin => ?_⟩⟩
  · exact exec_of_faultOf_some (if_pos hout)
  · exact ⟨s.afterDraw x y n, exec_drw_inside hin, rfl,
      fun px py => ⟨afterDraw_getPixel_of_hits, afterDraw_getPixel_of_not_hits⟩,
      (afterDraw_vf_eq_one_iff s x y n).mpr, afterDraw_vf_of_no_collision s x y n,
      fun r => afterDraw_reg_of_ne s x y n⟩

/-! #### Drawing twice -/

/-- Sprites at the same coordinates with the same rows cover the same cells. -/
theorem spriteHits_congr {s t : State} {x y : Reg} {n : Nibble} {px : Fin 64} {py : Fin 32}
    (hx : t.reg x = s.reg x) (hy : t.reg y = s.reg y) (hi : t.i = s.i) (hmem : t.mem = s.mem) :
    SpriteHits t x y n px py ↔ SpriteHits s x y n px py := by
  simp only [SpriteHits, hx, hy, hi, hmem]

/-- A coordinate stands after the first draw if it is not in VF, or VF came out as it was. -/
theorem afterDraw_reg_of_same_place {s : State} {x y : Reg} {n : Nibble} {r : Reg}
    (h : r ≠ 15 ∨ (s.afterDraw x y n).reg 15 = s.reg 15) : (s.afterDraw x y n).reg r = s.reg r := by
  by_cases hr : r = 15
  · subst hr
    exact h.resolve_left (absurd rfl)
  · exact afterDraw_reg_of_ne s x y n hr

/-- Settles O38: the second draw hits the cells of the first, so each is toggled twice, and those on at the second draw
are those the first turned on. -/
theorem drawingTwiceRestoresTheDisplay : Obligations.DrawingTwiceRestoresTheDisplay := by
  intro x y n s t u hplace hin ht hu
  obtain rfl := eq_afterDraw_of_exec hin ht
  obtain rfl := eq_afterDraw_of_exec (s := s.afterDraw x y n) hin hu
  have hx : (s.afterDraw x y n).reg x = s.reg x := afterDraw_reg_of_same_place (hplace.imp_left And.left)
  have hy : (s.afterDraw x y n).reg y = s.reg y := afterDraw_reg_of_same_place (hplace.imp_left And.right)
  have hsame (px : Fin 64) (py : Fin 32) : SpriteHits (s.afterDraw x y n) x y n px py ↔ SpriteHits s x y n px py :=
    spriteHits_congr hx hy rfl rfl
  constructor
  · refine display_ext fun px py => ?_
    by_cases hhit : SpriteHits s x y n px py
    · rw [afterDraw_getPixel_of_hits ((hsame px py).mpr hhit), afterDraw_getPixel_of_hits hhit, Bool.not_not]
    · rw [afterDraw_getPixel_of_not_hits (mt (hsame px py).mp hhit), afterDraw_getPixel_of_not_hits hhit]
  · rw [afterDraw_vf_eq_one_iff]
    refine exists₂_congr fun px py => ?_
    rw [hsame]
    by_cases hhit : SpriteHits s x y n px py
    · rw [afterDraw_getPixel_of_hits hhit]
      simp [hhit]
    · rw [afterDraw_getPixel_of_not_hits hhit]
      simp [hhit]

/-! #### CLS (R57) -/

/-- Settles O35: CLS writes the cleared display alone. -/
theorem clearScreenTurnsEveryCellOff : Obligations.ClearScreenTurnsEveryCellOff :=
  ⟨decodeWith_encode true .cls, fun _ => ⟨_, rfl, rfl, getPixel_clear⟩⟩

end Sys2Proof.Machine

/-! ### Control transfer (41_control_flow.md) -/

namespace Sys2Proof.Machine

/-! #### The jump targets -/

theorem absAddr_toNat (nnn : Addr12) : (absAddr nnn).toNat = nnn.toNat :=
  BitVec.toNat_setWidth_of_le (by decide)

/-- The sum of R66 does not wrap. -/
theorem offsetTarget_toNat (s : State) (nnn : Addr12) :
    (s.offsetTarget nnn).toNat = nnn.toNat + (s.reg 0).toNat := by
  have hn := nnn.isLt
  have hv := (s.reg 0).isLt
  have hnw : (nnn.setWidth 16).toNat = nnn.toNat := absAddr_toNat nnn
  have hvw : ((s.reg 0).setWidth 16).toNat = (s.reg 0).toNat := BitVec.toNat_setWidth_of_le (by decide)
  rw [State.offsetTarget, BitVec.toNat_add_of_lt (by omega), hnw, hvw]

/-! #### CALL and RET where they do not fault -/

/-- CALL on a stack of `k` entries (R61). -/
theorem exec_call_of_sp {s : State} {k : Fin 16} (nnn : Addr12) (h : s.sp = k.castSucc) :
    exec (.call nnn) s =
      .next { s with pc := absAddr nnn, sp := k.succ, stack := s.stack.set k.val s.pc k.isLt } := by
  simp only [exec, execCall, push_of_sp s.pc h]
  rfl

/-- RET on a stack of `k + 1` entries (R59). -/
theorem exec_ret_of_sp {s : State} {k : Fin 16} (h : s.sp = k.succ) :
    exec .ret s = .next { s with sp := k.castSucc, pc := s.stack[k.val] } := by
  simp only [exec, execRet, pop_of_sp h]
  rfl

/-- Settles O21: RET reads the entry that CALL wrote, and the PC between the two does not matter. -/
theorem returnUndoesCall : Obligations.ReturnUndoesCall := by
  intro nnn s t p hsp hcall
  obtain ⟨k, hk⟩ : ∃ k : Fin 16, s.sp = k.castSucc := ⟨⟨s.sp.val, hsp⟩, rfl⟩
  rw [exec_call_of_sp nnn hk, Host.Outcome.next.injEq] at hcall
  subst hcall
  exact ⟨_, exec_ret_of_sp (k := k) rfl, Vector.getElem_set_self k.isLt, hk.symm⟩

/-- Settles O15: a fault of the table on the empty stack, else a pop. -/
theorem returnPopsOrUnderflows : Obligations.ReturnPopsOrUnderflows :=
  ⟨decodeWith_encode true .ret, fun _ => ⟨fun hsp => exec_of_faultOf_some (if_pos hsp), fun _ => exec_ret_of_sp⟩⟩

/-- Settles O17: a fault of the table on the full stack, else a push. -/
theorem callPushesOrOverflows : Obligations.CallPushesOrOverflows := by
  intro nnn
  refine ⟨decodeWith_encode true (.call nnn), fun s => ⟨fun hsp => exec_of_faultOf_some (if_pos hsp), fun k hk => ?_⟩⟩
  refine ⟨_, exec_call_of_sp nnn hk, rfl, absAddr_toNat nnn, fun j => ?_⟩
  simp only [Vector.getElem_set, Fin.ext_iff, eq_comm (a := j.val)]

/-! #### Jumps -/

/-- Settles O16: JP writes PC alone. -/
theorem jumpLoadsTheAddress : Obligations.JumpLoadsTheAddress := fun nnn =>
  ⟨decodeWith_encode true (.jp nnn), fun s => ⟨s.jump (absAddr nnn), rfl, rfl, absAddr_toNat nnn⟩⟩

/-- Settles O20: JP V0 writes PC alone, and the sum fits 16 bits. -/
theorem offsetJumpAddsV0 : Obligations.OffsetJumpAddsV0 := fun nnn =>
  ⟨decodeWith_encode true (.jpV0 nnn), fun s =>
    ⟨s.jump (s.offsetTarget nnn), rfl, rfl, offsetTarget_toNat s nnn, offsetTarget_le s nnn⟩⟩

/-! #### Skips -/

theorem skipIf_beq (s : State) (a b : Byte) :
    s.skipIf (a == b) = if a = b then { s with pc := s.pc + 2 } else s := by
  simp only [State.skipIf, beq_iff_eq]

theorem skipIf_bne (s : State) (a b : Byte) :
    s.skipIf (a != b) = if a = b then s else { s with pc := s.pc + 2 } := by
  simp only [State.skipIf, bne_iff_ne, ne_eq, ite_not]

/-- Settles O18: each skip is taken by its comparison with the immediate. -/
theorem skipsCompareWithTheImmediate : Obligations.SkipsCompareWithTheImmediate := fun x kk =>
  ⟨decodeWith_encode true (.seImm x kk), decodeWith_encode true (.sneImm x kk), fun s =>
    ⟨congrArg _ (skipIf_beq s (s.reg x) kk), congrArg _ (skipIf_bne s (s.reg x) kk)⟩⟩

/-- Settles O19: each skip is taken by its comparison of the registers, which are equal when `x = y`. -/
theorem skipsCompareTwoRegisters : Obligations.SkipsCompareTwoRegisters := by
  intro x y
  refine ⟨decodeWith_encode true (.seReg x y), decodeWith_encode true (.sneReg x y), fun s => ?_⟩
  have hse : exec (.seReg x y) s = .next (if s.reg x = s.reg y then { s with pc := s.pc + 2 } else s) :=
    congrArg _ (skipIf_beq s (s.reg x) (s.reg y))
  have hsne : exec (.sneReg x y) s = .next (if s.reg x = s.reg y then s else { s with pc := s.pc + 2 }) :=
    congrArg _ (skipIf_bne s (s.reg x) (s.reg y))
  refine ⟨hse, hsne, fun hxy => ?_⟩
  have hreg : s.reg x = s.reg y := congrArg s.reg hxy
  rw [hse, hsne, if_pos hreg, if_pos hreg]
  exact ⟨rfl, rfl⟩

end Sys2Proof.Machine

/-! ### Arithmetic and logic (42_alu.md) -/

namespace Sys2Proof.Machine

/-! #### Writes of one register, and of a result and a flag in either order (decision D10) -/

section
variable {s : State} {x r : Reg} {b result flag : Byte} {f : Byte → Byte}

theorem reg_setReg_self : (s.setReg x b).reg x = b :=
  (reg_setReg s x b x).trans (if_pos rfl)

theorem reg_setReg_of_ne (h : r ≠ x) : (s.setReg x b).reg r = s.reg r :=
  (reg_setReg s x b r).trans (if_neg h)

theorem resultThenFlag_vf : (s.resultThenFlag x result flag).reg 15 = flag := reg_setReg_self

theorem resultThenFlag_result (hx : x ≠ 15) : (s.resultThenFlag x result flag).reg x = result :=
  (reg_setReg_of_ne hx).trans reg_setReg_self

theorem resultThenFlag_frame (hx : r ≠ x) (hvf : r ≠ 15) : (s.resultThenFlag x result flag).reg r = s.reg r :=
  (reg_setReg_of_ne hvf).trans (reg_setReg_of_ne hx)

theorem flagThenResult_result (hx : x ≠ 15) : (s.flagThenResult x flag f).reg x = f (s.reg x) :=
  reg_setReg_self.trans (congrArg f (reg_setReg_of_ne hx))

theorem flagThenResult_vf (hx : x ≠ 15) : (s.flagThenResult x flag f).reg 15 = flag :=
  (reg_setReg_of_ne hx.symm).trans reg_setReg_self

/-- With `x = 15` the function is applied to the flag. -/
theorem flagThenResult_of_vf : (s.flagThenResult 15 flag f).reg 15 = f flag :=
  reg_setReg_self.trans (congrArg f reg_setReg_self)

theorem flagThenResult_frame (hx : r ≠ x) (hvf : r ≠ 15) : (s.flagThenResult x flag f).reg r = s.reg r :=
  (reg_setReg_of_ne hx).trans (reg_setReg_of_ne hvf)

end

/-! #### The flags and the results as numbers (42_alu.md R73 to R79) -/

theorem carryFlag_toNat (a b : Byte) : (carryFlag a b).toNat = if a.toNat + b.toNat > 255 then 1 else 0 := by
  simp only [carryFlag, bool01_toNat, decide_eq_true_eq]

theorem noBorrowFlag_toNat (a b : Byte) : (noBorrowFlag a b).toNat = if a.toNat ≥ b.toNat then 1 else 0 := by
  simp only [noBorrowFlag, bool01_toNat, decide_eq_true_eq]

theorem shrFlag_toNat (a : Byte) : (shrFlag a).toNat = a.toNat % 2 :=
  (BitVec.toNat_and a 1).trans (Nat.and_one_is_mod a.toNat)

/-- The mask 0x80 is the power of two of bit 7, the sign bit. -/
theorem shlFlag_eq (a : Byte) : shlFlag a = if a.toNat ≥ 128 then 0x80 else 0 := by
  have hbit : a.getLsbD 7 = decide (a.toNat ≥ 128) := BitVec.msb_eq_decide a
  have hmask : shlFlag a = if a.getLsbD 7 then 0x80 else 0 := BitVec.and_twoPow a 7
  simp only [hmask, hbit, decide_eq_true_eq]

theorem shlFlag_toNat (a : Byte) : (shlFlag a).toNat = if a.toNat ≥ 128 then 0x80 else 0 := by
  rw [shlFlag_eq]
  split <;> rfl

/-- Bit 0 alone, shifted right, is gone. -/
theorem shrFlag_shiftRight_one (a : Byte) : shrFlag a >>> 1 = 0 := by
  have hlow : a.toNat % 2 / 2 = 0 := Nat.div_eq_of_lt (Nat.mod_lt _ (by decide))
  apply BitVec.eq_of_toNat_eq
  rw [BitVec.toNat_ushiftRight, shrFlag_toNat, Nat.shiftRight_one, hlow]
  rfl

/-- Bit 7 alone, shifted left, is gone. -/
theorem shlFlag_shiftLeft_one (a : Byte) : shlFlag a <<< 1 = 0 := by
  rw [shlFlag_eq]
  split <;> rfl

theorem shiftRight_one_toNat (a : Byte) : (a >>> 1).toNat = a.toNat / 2 :=
  (BitVec.toNat_ushiftRight a 1).trans (Nat.shiftRight_one a.toNat)

theorem shiftLeft_one_toNat (a : Byte) : (a <<< 1).toNat = a.toNat * 2 % 256 := by
  rw [BitVec.toNat_shiftLeft, Nat.shiftLeft_eq]

/-- Subtraction of bytes is the integer difference modulo 256. -/
theorem sub_toNat_int (a b : Byte) : ((a - b).toNat : Int) = ((a.toNat : Int) - b.toNat) % 256 := by
  have hb := b.isLt
  rw [BitVec.toNat_sub]
  omega

/-! #### Arithmetic with a flag -/

/-- Settles O24: the result is written first and the carry last. -/
theorem addRegistersSetsCarry : Obligations.AddRegistersSetsCarry := by
  intro x y
  refine ⟨decodeWith_encode true (.addReg x y), fun s => ⟨_, rfl, rfl, fun hx => ?_, ?_, fun r => resultThenFlag_frame⟩⟩
  · rw [resultThenFlag_result hx, BitVec.toNat_add]
  · rw [resultThenFlag_vf, carryFlag_toNat]

/-- What SUB and SUBN share: a difference written first and its missing borrow last (R74, R76). -/
theorem exec_difference {i : Instr} {s : State} {x : Reg} {a b : Byte}
    (h : exec i s = .next (s.resultThenFlag x (a - b) (noBorrowFlag a b))) :
    ∃ t, exec i s = .next t ∧ OnlyRegs s t ∧
      (x ≠ 15 → ((t.reg x).toNat : Int) = (a.toNat - b.toNat : Int) % 256) ∧
      (t.reg 15).toNat = (if a.toNat ≥ b.toNat then 1 else 0) ∧
      ∀ r, r ≠ x → r ≠ 15 → t.reg r = s.reg r := by
  refine ⟨_, h, rfl, fun hx => ?_, ?_, fun r => resultThenFlag_frame⟩
  · rw [resultThenFlag_result hx, sub_toNat_int]
  · rw [resultThenFlag_vf, noBorrowFlag_toNat]

/-- Settles O25: both write a difference of the two registers. -/
theorem subtractionsSetNoBorrow : Obligations.SubtractionsSetNoBorrow := fun x y =>
  ⟨decodeWith_encode true (.subReg x y), decodeWith_encode true (.subnReg x y), fun _ =>
    ⟨exec_difference rfl, exec_difference rfl⟩⟩

/-- Settles O26: the flag is written first, so with `x = 15` it is the flag, 0 or 1, that is halved. -/
theorem shiftRightHalvesAndFlagsBit0 : Obligations.ShiftRightHalvesAndFlagsBit0 := by
  intro x y
  refine ⟨decodeWith_encode true (.shr x y), fun s =>
    ⟨_, rfl, rfl, fun hx => ⟨?_, ?_⟩, ?_, fun r => flagThenResult_frame⟩⟩
  · rw [flagThenResult_result hx, shiftRight_one_toNat]
  · rw [flagThenResult_vf hx, shrFlag_toNat]
  · rintro rfl
    rw [flagThenResult_of_vf, shrFlag_shiftRight_one]

/-- Settles O27: the flag is written first, so with `x = 15` it is the flag, 0 or 0x80, that is doubled. -/
theorem shiftLeftDoublesAndFlags0x80 : Obligations.ShiftLeftDoublesAndFlags0x80 := by
  intro x y
  refine ⟨decodeWith_encode true (.shl x y), fun s =>
    ⟨_, rfl, rfl, fun hx => ⟨?_, ?_⟩, ?_, fun r => flagThenResult_frame⟩⟩
  · rw [flagThenResult_result hx, shiftLeft_one_toNat]
  · rw [flagThenResult_vf hx, shlFlag_toNat]
  · rintro rfl
    rw [flagThenResult_of_vf, shlFlag_shiftLeft_one]

/-! #### Writes of Vx alone -/

/-- Settles O22: each is one register write. -/
theorem loadsAndAddImmediateWriteOnlyVx : Obligations.LoadsAndAddImmediateWriteOnlyVx := by
  intro x y kk
  refine ⟨decodeWith_encode true (.ldImm x kk), decodeWith_encode true (.addImm x kk),
    decodeWith_encode true (.ldReg x y), fun s => ⟨⟨_, rfl, rfl, reg_setReg_self, fun r => reg_setReg_of_ne⟩,
      ⟨_, rfl, rfl, ?_, fun r => reg_setReg_of_ne⟩, ⟨_, rfl, rfl, reg_setReg_self, fun r => reg_setReg_of_ne⟩⟩⟩
  rw [reg_setReg_self, BitVec.toNat_add]

/-- Settles O23: each is one register write, of a byte whose bits the library gives. -/
theorem logicOperationsActBitwise : Obligations.LogicOperationsActBitwise := by
  intro x y
  refine ⟨decodeWith_encode true (.orReg x y), decodeWith_encode true (.andReg x y),
    decodeWith_encode true (.xorReg x y), fun s => ⟨⟨_, rfl, rfl, fun r => reg_setReg_of_ne, fun b _ => ?_⟩,
      ⟨_, rfl, rfl, fun r => reg_setReg_of_ne, fun b _ => ?_⟩,
      ⟨_, rfl, rfl, fun r => reg_setReg_of_ne, fun b _ => ?_⟩⟩⟩
  · rw [reg_setReg_self, BitVec.getLsbD_or]
  · rw [reg_setReg_self, BitVec.getLsbD_and]
  · rw [reg_setReg_self, BitVec.getLsbD_xor]

/-- Settles O28: one count of a draw and one register write, of a byte masked by `kk`. -/
theorem randomByteIsMasked : Obligations.RandomByteIsMasked := by
  intro x kk
  refine ⟨decodeWith_encode true (.rnd x kk), fun s => ?_⟩
  have hx : (s.countDraw.setReg x (Config.rnd s.draws &&& kk)).reg x = Config.rnd s.draws &&& kk := reg_setReg_self
  refine ⟨_, rfl, rfl, hx, ?_, fun b _ => ?_, fun r => reg_setReg_of_ne⟩
  · rintro rfl
    exact hx.trans BitVec.and_zero
  · rw [hx, BitVec.getLsbD_and, Bool.and_eq_true]
    exact And.right

end Sys2Proof.Machine

/-! ### Index register and memory transfer (43_index_memory.md) -/

namespace Sys2Proof.Machine

/-! #### Transfers at I, where every byte lies in memory -/

/-- The state after a store of bytes at I, which leaves I as it was. -/
def State.afterStore (s : State) (bs : List Byte) : State := { s with mem := s.mem.writeBytes s.i.toNat bs }

/-- The state after a load of V0..Vx from I, which leaves I as it was. -/
def State.afterLoad (s : State) (x : Reg) : State := s.setRegs 0 (s.mem.readBytes s.i.toNat (regCount x))

section
variable {s : State} {x : Reg}

theorem exec_ldB_inside (hin : s.i.toNat + 2 < 4096) : exec (.ldB x) s = .next (s.afterStore (bcdDigits (s.reg x))) :=
  access_inside (base := s.i.toNat) (n := 3) _ _ _ (.inl hin)

theorem exec_ldMemVx_inside (hin : s.i.toNat + x.toNat < 4096) :
    exec (.ldMemVx x) s = .next (s.afterStore (s.regsFrom 0 (regCount x))) :=
  access_inside (base := s.i.toNat) (n := x.toNat + 1) _ _ _ (.inl hin)

theorem exec_ldVxMem_inside (hin : s.i.toNat + x.toNat < 4096) : exec (.ldVxMem x) s = .next (s.afterLoad x) :=
  access_inside (base := s.i.toNat) (n := x.toNat + 1) _ _ _ (.inl hin)

theorem afterStore_read_inside {bs : List Byte} {j : Nat} (hm : s.mem.wf = true) (hin : s.i.toNat + bs.length ≤ 4096)
    (hj : j < bs.length) : (s.afterStore bs).mem.read (s.i.toNat + j) = bs[j] := by
  rw [State.afterStore, read_writeBytes hm hin, dif_pos (by omega)]
  congr 1
  exact Nat.add_sub_cancel_left ..

theorem afterStore_read_outside {bs : List Byte} {a : Nat} (hm : s.mem.wf = true)
    (hin : s.i.toNat + bs.length ≤ 4096) (hout : a < s.i.toNat ∨ s.i.toNat + bs.length ≤ a) :
    (s.afterStore bs).mem.read a = s.mem.read a := read_writeBytes_outside hm hin hout

/-- The loaded bytes go to V0..Vx in order, and they are at most 16. -/
theorem afterLoad_reg (r : Reg) :
    (s.afterLoad x).reg r = if r.toNat ≤ x.toNat then s.mem.read (s.i.toNat + r.toNat) else s.reg r := by
  have hlen : (s.mem.readBytes s.i.toNat (regCount x)).length = x.toNat + 1 := readBytes_length ..
  rw [State.afterLoad, reg_setRegs _ _ _ _ (by omega)]
  by_cases hr : r.toNat ≤ x.toNat
  · rw [dif_pos (by omega), if_pos hr, readBytes_getElem, Nat.sub_zero]
  · rw [dif_neg (by omega), if_neg hr]

end

/-! #### What is stored -/

theorem bcdDigits_getElem_toNat (v : Byte) {j : Nat} (hj : j < 3) :
    ((bcdDigits v)[j]).toNat = [v.toNat / 100, v.toNat / 10 % 10, v.toNat % 10][j] :=
  (List.getElem_map BitVec.toNat).symm.trans (List.getElem_of_eq (bcdDigits_toNat v) hj)

theorem regsFrom_zero_getElem {s : State} {n : Nat} {r : Reg} (h : r.toNat < (s.regsFrom 0 n).length) :
    (s.regsFrom 0 n)[r.toNat] = s.reg r := by
  rw [regsFrom_getElem, Nat.zero_add, BitVec.ofNat_toNat, BitVec.setWidth_eq]

/-! #### LD B, LD [I] and LD Vx,[I] (R83 to R85) -/

/-- Settles O31: a fault of the table, or a store of the three digits. -/
theorem bcdStoresThreeDigits : Obligations.BcdStoresThreeDigits := by
  intro x
  refine ⟨decodeWith_encode true (.ldB x), fun s => ⟨fun hout => exec_of_faultOf_some (if_pos hout), fun hin hm => ?_⟩⟩
  have hdigit (j : Nat) (hj : j < 3) : ((s.afterStore (bcdDigits (s.reg x))).mem.read (s.i.toNat + j)).toNat =
      [(s.reg x).toNat / 100, (s.reg x).toNat / 10 % 10, (s.reg x).toNat % 10][j] := by
    rw [afterStore_read_inside (bs := bcdDigits (s.reg x)) hm hin hj, bcdDigits_getElem_toNat]
  exact ⟨_, exec_ldB_inside hin, rfl, hdigit 0 (by decide), hdigit 1 (by decide), hdigit 2 (by decide),
    fun a hout => afterStore_read_outside hm hin hout⟩

/-- Settles O32: a fault of the table, or a store of the list of V0..Vx. -/
theorem dumpStoresV0ToVx : Obligations.DumpStoresV0ToVx := by
  intro x
  refine ⟨decodeWith_encode true (.ldMemVx x), fun s =>
    ⟨fun hout => exec_of_faultOf_some (if_pos hout), fun hin hm => ?_⟩⟩
  have hlen : (s.regsFrom 0 (regCount x)).length = x.toNat + 1 := regsFrom_length ..
  refine ⟨_, exec_ldMemVx_inside hin, rfl, fun r hr => ?_, fun a hout => ?_⟩
  · rw [afterStore_read_inside hm (by omega) (by omega), regsFrom_zero_getElem]
  · exact afterStore_read_outside hm (by omega) (by omega)

/-- Settles O33: a fault of the table, or a write of the loaded bytes to V0..Vx. -/
theorem loadFillsV0ToVx : Obligations.LoadFillsV0ToVx := fun x =>
  ⟨decodeWith_encode true (.ldVxMem x), fun s =>
    ⟨fun hout => exec_of_faultOf_some (if_pos hout), fun hin =>
      ⟨s.afterLoad x, exec_ldVxMem_inside hin, setRegs_frame s _ 0, afterLoad_reg⟩⟩⟩

/-- Settles O34: the load reads the bytes that the dump wrote. -/
theorem loadUndoesDump : Obligations.LoadUndoesDump := by
  intro x s t u hm hin hdump hmem hi
  obtain ⟨-, hdumps⟩ := dumpStoresV0ToVx x
  obtain ⟨t', ht', -, hstored, -⟩ := (hdumps s).2 hin hm
  obtain rfl : t' = t := Host.Outcome.next.inj (ht'.symm.trans hdump)
  refine ⟨u.afterLoad x, exec_ldVxMem_inside (hi ▸ hin), fun r hr => ?_⟩
  rw [afterLoad_reg, if_pos hr, hmem, hi, hstored r hr]

/-! #### Writes of I (R80 to R82) -/

/-- The largest glyph address, 1275, fits 16 bits. -/
theorem glyphAddr_toNat (s : State) (x : Reg) : (s.glyphAddr x).toNat = (s.reg x).toNat * 5 := by
  have hx := (s.reg x).isLt
  exact (BitVec.toNat_ofNat ..).trans (Nat.mod_eq_of_lt (by omega))

/-- Settles O29: each writes I alone, with a number that fits 16 bits. -/
theorem indexLoadsFromAddressAndGlyph : Obligations.IndexLoadsFromAddressAndGlyph :=
  ⟨fun nnn => ⟨decodeWith_encode true (.ldI nnn), fun _ => ⟨_, rfl, rfl, absAddr_toNat nnn⟩⟩,
    fun x => ⟨decodeWith_encode true (.ldF x), fun s => ⟨_, rfl, rfl, glyphAddr_toNat s x⟩⟩⟩

/-- Settles O30: a fault of the table, or a write of I with a sum that fits 16 bits. -/
theorem addToIndexOrOverflows : Obligations.AddToIndexOrOverflows := by
  intro x
  refine ⟨decodeWith_encode true (.addI x), fun s => ⟨fun hover => exec_of_faultOf_some (if_pos hover), fun hfit => ?_⟩⟩
  have hsum : (BitVec.ofNat 16 (s.indexSum x)).toNat = s.indexSum x :=
    (BitVec.toNat_ofNat ..).trans (Nat.mod_eq_of_lt (Nat.lt_succ_of_le hfit))
  exact ⟨_, if_neg (Nat.not_lt.mpr hfit), rfl, hsum⟩

end Sys2Proof.Machine

/-! ### Input and timer (44_input_timer.md) -/

namespace Sys2Proof.Machine

/-! #### The key skips (R86, R87) -/

/-- Settles O39: each skip is taken by its test of the value for membership, and a value of 16 or more is no member. -/
theorem keySkipsTestTheLiveKeySet : Obligations.KeySkipsTestTheLiveKeySet := by
  intro x
  refine ⟨decodeWith_encode true (.skp x), decodeWith_encode true (.sknp x), fun s => ⟨fun k hk => ?_, fun hge => ?_⟩⟩
  · have hheld : keyHeld s.keys (s.reg x).toNat = s.keys[k.val] := by rw [hk, keyHeld_iff]
    simp only [exec, execSkp, execSknp, hheld]
    cases s.keys[k.val] <;> exact ⟨rfl, rfl⟩
  · simp only [exec, execSkp, execSknp, keyHeld_of_ge s.keys hge]
    exact ⟨rfl, rfl⟩

/-! #### The timer (R88, R90, R91) -/

/-- Settles O40: one register write, one write of DT, and nothing at all. -/
theorem timerTransfersAndSoundNoOp : Obligations.TimerTransfersAndSoundNoOp := fun x =>
  ⟨decodeWith_encode true (.ldVxDt x), decodeWith_encode true (.ldDtVx x), decodeWith_encode true (.ldStVx x), fun _ =>
    ⟨⟨_, rfl, rfl, reg_setReg_self, fun _ => reg_setReg_of_ne⟩, rfl, rfl⟩⟩

/-! #### The key wait (R89) -/

/-- The key that LD Vx,K loads, as the index of its entry of the set. -/
def heldKey (keys : KeySet) : Fin 16 := (keyChoice keys).toFin

/-- The set is not empty exactly when some key is held. -/
theorem keysEmpty_eq_false_iff (keys : KeySet) : keysEmpty keys = false ↔ ∃ k : Fin 16, keys[k.val] = true := by
  rw [← Bool.not_eq_true, keysEmpty_iff, not_forall]
  simp only [Bool.not_eq_false]

theorem heldKey_held {keys : KeySet} (h : ∃ k : Fin 16, keys[k.val] = true) : keys[(heldKey keys).val] = true := by
  rw [← keyHeld_iff]
  exact keyChoice_held keys ((keysEmpty_eq_false_iff keys).mpr h)

/-- A key code fits a register. -/
theorem keyByte_toNat (k : Key) : (keyByte k).toNat = k.toNat := BitVec.toNat_setWidth_of_le (by decide)

theorem exec_ldVxK_of_empty {s : State} (x : Reg) (h : ∀ k : Fin 16, s.keys[k.val] = false) :
    exec (.ldVxK x) s = .next s.rewind := if_pos ((keysEmpty_iff s.keys).mpr h)

theorem exec_ldVxK_of_held {s : State} (x : Reg) (h : ∃ k : Fin 16, s.keys[k.val] = true) :
    exec (.ldVxK x) s = .next (s.setReg x (keyByte (keyChoice s.keys))) :=
  if_neg (ne_true_of_eq_false ((keysEmpty_eq_false_iff s.keys).mpr h))

@[simp] theorem fetched_keys (s : State) : s.fetched.keys = s.keys := ageTimer_keys s

/-- Going back undoes the advance of the fetch, and only the aging of the timer stays. -/
theorem rewind_fetched (s : State) : s.fetched.rewind = { s with dt := if s.dt = 0 then 0 else s.dt - 1 } := by
  have hpc : s.pc + 2 - 2 = s.pc := BitVec.add_sub_cancel ..
  rw [fetched_eq, State.rewind, hpc]

/-- Settles O41: by whether a key is held; the wait goes back over the fetch, and the load is one register write. -/
theorem keyWaitRetriesOrLoadsAHeldKey : Obligations.KeyWaitRetriesOrLoadsAHeldKey := by
  refine ⟨fun x => decodeWith_encode true (.ldVxK x), fun x s => exec_ldVxK_of_empty x, fun x s hf hin hempty hd => ?_,
    heldKey, fun keys => heldKey_held, fun x s hheld => ?_⟩
  · have hkeys : ∀ k : Fin 16, s.fetched.keys[k.val] = false := by rwa [fetched_keys]
    rw [step_of_decode hf hin hd, runDecoded, exec_ldVxK_of_empty x hkeys, rewind_fetched]
  · have hx : (s.setReg x (keyByte (keyChoice s.keys))).reg x = keyByte (keyChoice s.keys) := reg_setReg_self
    refine ⟨_, exec_ldVxK_of_held x hheld, rfl, ?_, fun r => reg_setReg_of_ne⟩
    rw [hx, keyByte_toNat]
    rfl

end Sys2Proof.Machine

/-! ### Faults and the halted state (60_exceptions.md) -/

namespace Sys2Proof.Machine

/-! #### The table of causes (R93, R96) -/

/-- Settles O13: a fault of the table, or a completion, which keeps FAULT; the fetch's row is that of O7. -/
theorem faultsAreThoseOfTheTable : Obligations.FaultsAreThoseOfTheTable := by
  refine ⟨fun i s hs => ?_, rfl, fun s hout => ?_⟩
  · obtain ⟨t, ht⟩ := exec_total i s
    refine ⟨t, ht, fun c a hf => ?_, fun hf => ?_⟩
    · exact Host.Outcome.next.inj (ht.symm.trans (exec_of_faultOf_some hf))
    · exact ((displayAndFaultFrame i s t ht).2 hf).trans hs
  · have hout : s.pc.toNat + 1 ≥ 4096 := by omega
    exact ⟨_, (fetchReadsBigEndianAndAdvances s).2 hout, rfl⟩

/-- A fault raised after the fetch takes PC back to the instruction's own address. -/
theorem raise_fetched (s : State) (c : Cause) (a : Nat) :
    s.fetched.raise c a = { s with dt := if s.dt = 0 then 0 else s.dt - 1, fault := some ⟨c, s.pc, a⟩ } := by
  have hraise : s.fetched.raise c a =
      { s.fetched.rewind with fault := some ⟨c, s.fetched.rewind.pc, a⟩ } := rfl
  rw [hraise, rewind_fetched]

/-- Settles O12: the fetch's fault stands on the aged state, and a fault of the table goes back over the fetch. -/
theorem faultEntryIsPrecise : Obligations.FaultEntryIsPrecise := by
  intro s t hs hstep ht
  obtain ⟨hhalted, -⟩ | ⟨-, -, rfl⟩ | ⟨-, -, rfl | ⟨i, hi⟩⟩ := step_cases hstep
  · exact absurd hs hhalted
  · exact ⟨.fetchOob, max s.pc.toNat 4096, by rw [ageTimer_eq, State.enterFault]⟩
  · exact absurd ((fetched_fault s).trans hs) ht
  · obtain ⟨c, a, -, rfl⟩ | ⟨-, hc⟩ := exec_cases hi
    · exact ⟨c, a, raise_fetched s c a⟩
    · exact absurd (hc.fault_eq.trans ((fetched_fault s).trans hs)) ht

/-! #### The halted state (R97) -/

theorem executeOnly_of_halted {s : State} (h : s.fault ≠ none) : executeOnly s = .next s := by
  obtain ⟨r, hr⟩ := Option.ne_none_iff_exists'.mp h
  simp only [executeOnly, hr]

theorem tick_of_halted {s : State} (h : s.fault ≠ none) : tick s = .next s := by
  obtain ⟨r, hr⟩ := Option.ne_none_iff_exists'.mp h
  simp only [tick, hr]

theorem keySetOf_getElem_iff (codes : List Nat) (k : Fin 16) : (keySetOf codes)[k.val] = true ↔ k.val ∈ codes := by
  simp only [keySetOf, Vector.getElem_ofFn, List.contains_iff_mem]

/-- `set_keys` with codes the host may give replaces KEYS alone (70_reset_and_hazards.md R110). -/
theorem hostSetKeys_of_lt {codes : List Nat} (h : ∀ k ∈ codes, k < 16) (s : State) :
    hostSetKeys codes s = .next { s with keys := keySetOf codes } :=
  if_pos (List.all_eq_true.mpr fun k hk => decide_eq_true (h k hk))

/-- Settles O14: `tick` and `execute_only` test FAULT first, and the other calls never do. -/
theorem haltedMachineOnlyLeavesByReset : Obligations.HaltedMachineOnlyLeavesByReset := by
  intro s hs
  refine ⟨tick_of_halted hs, tick_of_halted hs, executeOnly_of_halted hs, rfl, fun codes hcodes => ?_,
    fun bytes hlen => ?_, ⟨s.hostReset, rfl, hostReset_fault s⟩⟩
  · exact ⟨_, hostSetKeys_of_lt hcodes s, rfl, keySetOf_getElem_iff codes⟩
  · exact ⟨_, if_pos hlen, rfl, rfl, rfl⟩

/-! #### The timer's aging (R100) -/

theorem executeOnly_of_running {s : State} (h : s.fault = none) : executeOnly s = executeOne s := by
  simp only [executeOnly, h]

theorem tick_of_running {s : State} (h : s.fault = none) : tick s = executeOnly (ageTimer s) := by
  rw [executeOnly_of_running ((ageTimer_fault s).trans h)]
  simp only [tick, h]

/-- Without aging, LD DT,Vx alone writes DT, and with Vx. -/
theorem executeOne_dt {s t : State} (h : executeOne s = .next t) :
    t.dt = s.dt ∨ ∃ x, decode (s.mem.wordAt s.pc.toNat) = .instr (.ldDtVx x) ∧ t.dt = s.reg x := by
  obtain ⟨-, he⟩ | ⟨-, -, he⟩ | ⟨i, -, hd, he⟩ := executeOne_cases s <;> rw [he] at h
  · obtain rfl := Host.Outcome.next.inj h
    exact .inl rfl
  · obtain rfl := Host.Outcome.next.inj h
    exact .inl rfl
  · by_cases hi : ∃ x, i = .ldDtVx x
    · obtain ⟨x, rfl⟩ := hi
      obtain rfl := Host.Outcome.next.inj h
      exact .inr ⟨x, hd, rfl⟩
    · obtain ⟨-, hdt, -⟩ := indexTimerAndKeysFrame _ _ _ h
      exact .inl (hdt (not_exists.mp hi))

/-- Settles O10: `tick` is `execute_only` of the aged state, and neither call acts on a halted one. -/
theorem tickAgesTheTimerOnceBeforeTheFetch : Obligations.TickAgesTheTimerOnceBeforeTheFetch := by
  refine ⟨fun s hs => ⟨ageTimer s, ?_, ageTimer_dt_toNat s, tick_of_running hs⟩, fun s t h => ?_, fun s t hs h => ?_⟩
  · rw [ageTimer_eq]
  · by_cases hs : s.fault = none
    · exact executeOne_dt ((executeOnly_of_running hs).symm.trans h)
    · obtain rfl := Host.Outcome.next.inj ((executeOnly_of_halted hs).symm.trans h)
      exact .inl rfl
  · obtain rfl := Host.Outcome.next.inj ((tick_of_halted hs).symm.trans h)
    rfl

end Sys2Proof.Machine

/-! ### Reset, the host's calls and the ends of a run (70_reset_and_hazards.md) -/

namespace Sys2Proof.Machine

/-! #### What every call keeps (10_state.md R12) -/

/-- A PC from which a whole word can be fetched stays bounded over the fetch. -/
theorem State.pcBounded.advance {s : State} (hs : s.pcBounded) (hin : s.pc.toNat + 2 ≤ 4096) :
    ({ s with pc := s.pc + 2 } : State).pcBounded := by
  have hle : (s.pc + 2).toNat ≤ 0x10FE := by rw [pc_add_two s hin]; omega
  exact hs.of_same_stack rfl rfl hle

/-- One fetch and its instruction, without aging: where it can fetch, the instruction runs with PC from 2 to 4096. -/
theorem executeOne_keeps {s t : State} (hm : s.mem.wf = true) (hs : s.pcBounded) (h : executeOne s = .next t) :
    t.mem.wf = true ∧ t.pcBounded := by
  obtain ⟨-, he⟩ | ⟨hin, -, he⟩ | ⟨i, hin, -, he⟩ := executeOne_cases s <;> rw [he] at h
  · obtain rfl := Host.Outcome.next.inj h
    exact ⟨hm, hs⟩
  · obtain rfl := Host.Outcome.next.inj h
    exact ⟨hm, hs.advance hin⟩
  · have hlo : 2 ≤ (s.pc + 2).toNat := by rw [pc_add_two s hin]; omega
    have hhi : (s.pc + 2).toNat ≤ 4096 := by rwa [pc_add_two s hin]
    exact ⟨exec_mem_wf (s := { s with pc := s.pc + 2 }) hm h, exec_pcBounded (hs.advance hin) hlo hhi h⟩

theorem executeOnly_keeps {s t : State} (hm : s.mem.wf = true) (hs : s.pcBounded) (h : executeOnly s = .next t) :
    t.mem.wf = true ∧ t.pcBounded := by
  by_cases hf : s.fault = none
  · exact executeOne_keeps hm hs ((executeOnly_of_running hf).symm.trans h)
  · obtain rfl := Host.Outcome.next.inj ((executeOnly_of_halted hf).symm.trans h)
    exact ⟨hm, hs⟩

theorem hostReset_pcBounded (s : State) : s.hostReset.pcBounded := ⟨Nat.zero_le _, nofun⟩

/-- `load_program` answers only for an image that fits above 0x200. -/
theorem hostLoadProgram_eq_next_iff {bytes : List Byte} {s t : State} :
    hostLoadProgram bytes s = .next t ↔
      bytes.length ≤ 3584 ∧ t = { s with mem := s.mem.writeBytes 0x200 bytes, pc := 0x200 } := by
  unfold hostLoadProgram
  split
  · next hlen => simp only [Host.Outcome.next.injEq, hlen, true_and, eq_comm]
  · next hlen => simp only [hlen, reduceCtorEq, false_and]

/-- `set_keys` answers only for codes of keys. -/
theorem hostSetKeys_eq_next_iff {codes : List Nat} {s t : State} :
    hostSetKeys codes s = .next t ↔ (∀ k ∈ codes, k < 16) ∧ t = { s with keys := keySetOf codes } := by
  by_cases hcodes : ∀ k ∈ codes, k < 16
  · simp only [hostSetKeys_of_lt hcodes, Host.Outcome.next.injEq, iff_true_intro hcodes, true_and, eq_comm]
  · have hrefused : hostSetKeys codes s = .refused .keyCodeOutOfRange := if_neg (by simpa using hcodes)
    simp only [hrefused, hcodes, reduceCtorEq, false_and]

/-- Settles O50: reset and `load_program` set PC, the two calls that run an instruction keep the bound as it does, and
the other two leave PC, the stack and memory alone. -/
theorem hostCallsKeepMemoryAndPc : Obligations.HostCallsKeepMemoryAndPc := by
  intro c s t hm hs h
  cases c with
  | reset =>
    obtain rfl := Host.Outcome.next.inj h
    exact ⟨rfl, hostReset_pcBounded s⟩
  | loadProgram bytes =>
    obtain ⟨hlen, rfl⟩ := hostLoadProgram_eq_next_iff.mp h
    have hpc : (0x200 : Addr).toNat ≤ 0x10FE := by decide
    exact ⟨wf_writeBytes hm (by omega), hs.of_same_stack rfl rfl hpc⟩
  | setKeys codes =>
    obtain ⟨-, rfl⟩ := hostSetKeys_eq_next_iff.mp h
    exact ⟨hm, hs⟩
  | tick => exact ⟨step_mem_wf hm h, everyStepKeepsPcBounded s t hs h⟩
  | executeOnly => exact executeOnly_keeps hm hs h
  | getDisplayBuffer =>
    obtain rfl := Host.Outcome.next.inj h
    exact ⟨hm, hs⟩

/-! #### A normal end (R116) -/

/-- An address below 4096 is its own low 12 bits. -/
theorem absAddr_setWidth {a : Addr} (h : a.toNat < 4096) : absAddr (a.setWidth 12) = a := by
  apply BitVec.eq_of_toNat_eq
  rw [absAddr_toNat, BitVec.toNat_setWidth, Nat.mod_eq_of_lt h]

/-- Settles O51: the word is the encoding of the jump to its own address, so PC goes back over the fetch. -/
theorem normalEndOnlyAgesTheTimer : Obligations.NormalEndOnlyAgesTheTimer := by
  rintro s ⟨hf, hin, hw⟩
  have hd : decode (s.mem.wordAt s.pc.toNat) = .instr (.jp (s.pc.setWidth 12)) := by
    rw [hw]
    exact decodeWith_encode true (.jp (s.pc.setWidth 12))
  have hself : s.fetched.jump (absAddr (s.pc.setWidth 12)) = { s with dt := if s.dt = 0 then 0 else s.dt - 1 } := by
    rw [absAddr_setWidth (by omega), fetched_eq, State.jump]
  exact ⟨_, (step_of_decode hf hin hd).trans (congrArg Host.Outcome.next hself), rfl, hf, hin, hw⟩

/-! #### load_program (R112) -/

/-- Bytes written within memory read back in order. -/
theorem read_writeBytes_inside {m : Memory} {a k : Nat} {bs : List Byte} (hm : m.wf = true)
    (hin : a + bs.length ≤ 4096) (hk : k < bs.length) : (m.writeBytes a bs).read (a + k) = bs[k] := by
  rw [read_writeBytes hm hin, dif_pos (by omega)]
  congr 1
  exact Nat.add_sub_cancel_left ..

/-- Settles O54: one store of the image, which fits memory exactly where the call answers. -/
theorem loadProgramWritesTheImage : Obligations.LoadProgramWritesTheImage := by
  intro bytes s
  constructor
  · intro hlen hm
    have hfits : 0x200 + bytes.length ≤ 4096 := by omega
    refine ⟨_, hostLoadProgram_eq_next_iff.mpr ⟨hlen, rfl⟩, rfl, fun k b hb => ?_, fun a hout => ?_⟩
    · obtain ⟨hk, rfl⟩ := List.getElem?_eq_some_iff.mp hb
      exact read_writeBytes_inside hm hfits hk
    · exact read_writeBytes_outside hm hfits hout
  · intro hlong t h
    have hlen := (hostLoadProgram_eq_next_iff.mp h).1
    omega

/-! #### get_display_buffer (R111) -/

/-- The buffer is the display's rows, one after another. -/
theorem displayBuffer_eq (s : State) : displayBuffer s = s.disp.flatten.toList := by
  simp only [displayBuffer, Vector.flatten, Vector.toList_mk, Array.toList_flatten, Array.toList_map, List.map_map]
  rfl

/-- Settles O56: the cell of row-major position `py * 64 + px` is entry `px` of row `py`. -/
theorem displayBufferIsRowMajor : Obligations.DisplayBufferIsRowMajor := by
  refine fun s => ⟨rfl, ?_, fun px py => ?_⟩
  · rw [displayBuffer_eq, Vector.length_toList]
  · have hpos : py.val * 64 + px.val < 32 * 64 := by omega
    have hrow : (py.val * 64 + px.val) / 64 = py.val := by omega
    have hcol : (py.val * 64 + px.val) % 64 = px.val := by omega
    rw [displayBuffer_eq, List.getElem?_eq_getElem (by rwa [Vector.length_toList]), Vector.getElem_toList,
      Vector.getElem_flatten hpos]
    simp only [hrow, hcol, Display.getPixel]

/-! #### reset (R108, R109) -/

/-- Past the 80 glyph bytes the reset contents are 0 (10_state.md R22). -/
theorem resetByte_of_ge {a : Nat} (h : 80 ≤ a) : resetByte a = 0 := List.getD_eq_default _ _ h

/-- Settles O52: by the reset value of each component. -/
theorem resetLeavesTheListedValues : Obligations.ResetLeavesTheListedValues := fun s =>
  ⟨s.hostReset, rfl, fun r => Vector.getElem_replicate r.isLt, rfl, rfl, rfl, rfl,
    fun k => Vector.getElem_replicate k.isLt, getPixel_clear, rfl, rfl, fun _ ha _ => resetByte_of_ge ha, rfl, rfl⟩

/-- Settles O53: reset keeps KEYS and the draw counter alone, and both are as at power-on. -/
theorem powerOnIsResetWithNoKeys : Obligations.PowerOnIsResetWithNoKeys := by
  refine ⟨fun k => Vector.getElem_replicate k.isLt, fun s hkeys hdraws => ?_⟩
  have hnone : s.keys = State.reset.keys :=
    Vector.ext fun k hk => (hkeys ⟨k, hk⟩).trans (Vector.getElem_replicate hk).symm
  rw [hostCall, State.hostReset, hnone, hdraws]
  rfl

/-! #### set_keys (R110) -/

/-- Settles O55: KEYS becomes the set of the codes, and a code that is no key's has no answer. -/
theorem setKeysReplacesTheSet : Obligations.SetKeysReplacesTheSet := by
  refine fun codes s => ⟨fun hcodes => ?_, fun hbad t h => ?_⟩
  · exact ⟨_, hostSetKeys_eq_next_iff.mpr ⟨hcodes, rfl⟩, rfl, keySetOf_getElem_iff codes⟩
  · obtain ⟨k, hk, hge⟩ := hbad
    exact absurd ((hostSetKeys_eq_next_iff.mp h).1 k hk) (Nat.not_lt.mpr hge)

end Sys2Proof.Machine
